-- ==== Sys2Proof/Word.lean ====
section
/-! DEFINITION. The widths of the machine's data and addresses (00_scope.md R5). -/

namespace Sys2Proof

/-- An 8-bit value: a general register, an immediate datum, a memory cell, an I/O value (R5, R11). -/
abbrev Byte := BitVec 8

/-- A 16-bit memory address, and the program counter's width (R5, R14). -/
abbrev Addr := BitVec 16

end Sys2Proof
end

