-- ==== Sys2Proof/Config.lean ====
section
/-! DEFINITION. The parameters of the machine (00_scope.md R5, 10_state.md R26) and its free values: what the spec
leaves open, as constants without a body, so that nothing can be proved about which value they take. Every free value
is applied to the number of instructions completed so far (State.draws) and to the place in the instruction where it
is drawn, so two draws are never the same application. -/

namespace Sys2Proof

/-- The two kinds of transfer with the peripheral (43_io.md R110). -/
inductive IoKind where
  | data
  | addr
  deriving DecidableEq, Repr

/-- One event of the I/O trace (43_io.md R110): `input` is the rule's In(kind, v), `output` its Out(kind, v). -/
inductive IoEvent where
  | input (kind : IoKind) (v : Byte)
  | output (kind : IoKind) (v : Byte)
  deriving DecidableEq, Repr

/-- The four flags (10_state.md R17), as names. -/
inductive Flag where
  | c
  | a
  | e
  | z
  deriving DecidableEq, Repr

/-- The two register operand positions (00_scope.md R8): RegA in bits 3:2, RegB in bits 1:0. -/
inductive OperandPos where
  | regA
  | regB
  deriving DecidableEq, Repr

/-- The memory reads of one instruction (20_memory.md R36): fetch of its byte number `k`, and LD's data read. -/
inductive MemAccess where
  | fetch (k : Nat)
  | load
  deriving DecidableEq, Repr

/-- `RESET_PC` (00_scope.md R5, 10_state.md R25). -/
def Config.resetPc : Addr := 0x0000#16

/-- FREE VALUE (log 3): a flag that 10_state.md R18 marks `any`, drawn by the instruction with this number. -/
opaque Config.freeFlag : Nat → Flag → Bool

/-- FREE VALUE (log 2): what a read of a register that no instruction has written since reset answers
(10_state.md R13), one draw for each operand position of each instruction. -/
opaque Config.freeRegister : Nat → OperandPos → Byte

/-- FREE VALUE (log 5): what a read of a memory byte that neither the image nor an ST has written answers
(20_memory.md R32), one draw for each access of each instruction. -/
opaque Config.freeMemory : Nat → MemAccess → Byte

/-- FREE VALUE (log 6): the I/O oracle (43_io.md R110): the peripheral's answer to IND or INA, which may depend on the
whole I/O trace so far and is otherwise unconstrained. -/
opaque Config.ioIn : Nat → List IoEvent → IoKind → Byte

end Sys2Proof
end

