-- ==== Sys2Proof/Syntax.lean ====
section
/-! DEFINITION. The instruction set as data: one constructor for each row of spec/opcode_table.json
(30_encoding.md R56, R58). In a two-register constructor the first register is RegA and the second RegB (R8). -/

namespace Sys2Proof

/-- The four general registers (10_state.md R10). -/
inductive Reg where
  | r0
  | r1
  | r2
  | r3
  deriving DecidableEq, Repr

inductive Instr where
  /-- ADD RegA, RegB (R72). -/
  | add (a b : Reg)
  /-- SHL RegA, RegB (R73). -/
  | shl (a b : Reg)
  /-- SHR RegA, RegB (R74). -/
  | shr (a b : Reg)
  /-- NOT RegA, RegB (R75). -/
  | not (a b : Reg)
  /-- AND RegA, RegB (R76). -/
  | and (a b : Reg)
  /-- OR RegA, RegB (R77). -/
  | or (a b : Reg)
  /-- XOR RegA, RegB (R78). -/
  | xor (a b : Reg)
  /-- CMP RegA, RegB (R79). -/
  | cmp (a b : Reg)
  /-- LD RegA, RegB: the address is in RegA (R80). -/
  | ld (a b : Reg)
  /-- ST RegA, RegB: the address is in RegA, the datum in RegB (R81). -/
  | st (a b : Reg)
  /-- DTA RegB, data (R82). -/
  | dta (b : Reg) (data : Byte)
  /-- JMPR RegB (R83). -/
  | jmpr (b : Reg)
  /-- JMP Addr (R84). -/
  | jmp (addr : Addr)
  /-- JC Addr (R91). -/
  | jc (addr : Addr)
  /-- JA Addr (R92). -/
  | ja (addr : Addr)
  /-- JE Addr (R93). -/
  | je (addr : Addr)
  /-- JZ Addr (R94). -/
  | jz (addr : Addr)
  /-- JCA Addr (R95). -/
  | jca (addr : Addr)
  /-- JCE Addr (R96). -/
  | jce (addr : Addr)
  /-- JCZ Addr (R97). -/
  | jcz (addr : Addr)
  /-- JAE Addr (R98). -/
  | jae (addr : Addr)
  /-- JAZ Addr (R99). -/
  | jaz (addr : Addr)
  /-- JEZ Addr (R100). -/
  | jez (addr : Addr)
  /-- JCAE Addr (R101). -/
  | jcae (addr : Addr)
  /-- JCAZ Addr (R102). -/
  | jcaz (addr : Addr)
  /-- JCEZ Addr (R103). -/
  | jcez (addr : Addr)
  /-- JAEZ Addr (R104). -/
  | jaez (addr : Addr)
  /-- JCAEZ Addr (R105). -/
  | jcaez (addr : Addr)
  /-- CLF (R85). -/
  | clf
  /-- IND RegB (R111). -/
  | ind (b : Reg)
  /-- INA RegB (R112). -/
  | ina (b : Reg)
  /-- OUTD RegB (R113). -/
  | outd (b : Reg)
  /-- OUTA RegB (R114). -/
  | outa (b : Reg)
  /-- The reserved opcode byte 0x50 with the two bytes a disassembler takes with it (R59, R106). -/
  | reserved50 (addr : Addr)
  deriving DecidableEq, Repr

end Sys2Proof
end

