-- ==== Sys2Proof/Machine/State.lean ====
section
/-! DEFINITION. The machine's state as plain data (10_state.md R26), its one fault, and the state after reset
(10_state.md R25, 70_reset_and_hazards.md R140). -/

namespace Sys2Proof.Machine

/-- One value for each of the four general registers (10_state.md R10). -/
structure PerReg (α : Type) where
  r0 : α
  r1 : α
  r2 : α
  r3 : α
  deriving DecidableEq, Repr

/-- The four flags (10_state.md R17): `c` carry, `a` "RegA > RegB", `e` "RegA == RegB", `z` "Acc == 0". No
instruction sees them as a word (R19), so each is a Bool. -/
structure Flags where
  c : Bool
  a : Bool
  e : Bool
  z : Bool
  deriving DecidableEq, Repr

/-- The memory of 65536 bytes (20_memory.md R30): the (address, byte) pairs of the bytes that the loaded image or an ST
has written, addresses strictly rising (`Memory.wf`). An unlisted byte is unspecified and reads as a free value
(20_memory.md R32; log 5). -/
abbrev Memory := List Host.Cell

/-- Why the machine stops (60_exceptions.md R122). -/
inductive Fault where
  /-- ReservedOpcode: raised by executing the opcode byte 0x50 at `pc`, before any change of state (R106, R122).
  Safe: nothing is provable of what the hardware does after it. -/
  | reservedOpcode (pc : Addr)
  deriving DecidableEq, Repr

/-- Why the model has no meaning for an instruction. -/
inductive Refusal where
  /-- An instruction without a meaning, by its mnemonic; raised by a refused arm of `exec`, and there is none. Safe. -/
  | notModelled (mnemonic : String)
  deriving DecidableEq, Repr

/-- The machine's state (10_state.md R26). -/
structure State where
  /-- R0 to R3 (R10, R11). The value of a register that is not `written` is never read (R13; log 1). -/
  regs : PerReg Byte
  /-- Whether an instruction has written the register since reset (R13). -/
  written : PerReg Bool
  /-- The address of the next instruction's opcode byte (R14). -/
  pc : Addr
  /-- C, A, E, Z (R17). -/
  flags : Flags
  /-- The one memory, program and data (R22). -/
  mem : Memory
  /-- The I/O trace (43_io.md R110), oldest event first (log 7). -/
  trace : List IoEvent
  /-- The fault mark (60_exceptions.md R122): a state that holds one has no further step. -/
  fault : Option Fault
  /-- THE MODEL'S OWN: how many instructions have completed, the argument of every free value (log 4). -/
  draws : Nat
  deriving DecidableEq, Repr

/-- The machine right after reset, with no image loaded (10_state.md R25). The registers' values are the model's
(log 1) and are never read, since none is written. -/
def State.reset : State where
  regs := ⟨0x00#8, 0x00#8, 0x00#8, 0x00#8⟩
  written := ⟨false, false, false, false⟩
  pc := Config.resetPc
  flags := ⟨false, false, false, false⟩
  mem := []
  trace := []
  fault := none
  draws := 0

end Sys2Proof.Machine
end

