-- ==== Sys2Proof/Machine/Ops.lean ====
section
/-! DEFINITION. The named operations over registers, memory, flags, the program counter and the I/O channel, in which
every meaning is written.

Taking an exception and returning from one: the machine has neither ("There is no trap entry: no state is saved, no
mode or mask changes, control goes nowhere", 60_exceptions.md R125; "There is no return-from-trap instruction", R126).
The one stop is `State.raiseReserved`. -/

namespace Sys2Proof.Machine

/-- The outcome of a meaning. -/
abbrev Result := Host.Outcome State Fault Refusal

/-! ## Registers -/

def PerReg.get {α : Type} (p : PerReg α) : Reg → α
  | .r0 => p.r0
  | .r1 => p.r1
  | .r2 => p.r2
  | .r3 => p.r3

def PerReg.set {α : Type} (p : PerReg α) (r : Reg) (v : α) : PerReg α :=
  match r with
  | .r0 => { p with r0 := v }
  | .r1 => { p with r1 := v }
  | .r2 => { p with r2 := v }
  | .r3 => { p with r3 := v }

/-- `R[r]`, read as the operand in position `pos`: the register's value if an instruction has written it since reset,
else a draw made at this read (10_state.md R13). -/
def State.readReg (s : State) (pos : OperandPos) (r : Reg) : Byte :=
  if s.written.get r then s.regs.get r else Config.freeRegister s.draws pos

/-- `R[r] <- v` (00_scope.md R7). No register is hardwired (10_state.md R10). -/
def State.writeReg (s : State) (r : Reg) (v : Byte) : State :=
  { s with regs := s.regs.set r v, written := s.written.set r true }

/-! ## Memory -/

/-- The byte that the image or an ST has last written at address `a`, if any. -/
def Memory.byteAt (m : Memory) (a : Nat) : Option Byte :=
  match m with
  | [] => none
  | (k, v) :: rest => if a = k then some v else Memory.byteAt rest a

/-- Write `v` at address `a`, keeping the addresses strictly rising. -/
def Memory.store (m : Memory) (a : Nat) (v : Byte) : Memory :=
  match m with
  | [] => [(a, v)]
  | (k, w) :: rest =>
    if a < k then (a, v) :: (k, w) :: rest
    else if a = k then (a, v) :: rest
    else (k, w) :: Memory.store rest a v

/-- The listed addresses are strictly rising, at least `low`, and inside the address space. -/
def Memory.wfFrom (low : Nat) (m : Memory) : Bool :=
  match m with
  | [] => true
  | (k, _) :: rest => decide (low ≤ k) && decide (k < 65536) && Memory.wfFrom (k + 1) rest

/-- The canonical form: strictly rising addresses of the 65536 (20_memory.md R30). An unlisted address reads as no
fixed value, so every listed entry says something. -/
def Memory.wf (m : Memory) : Bool := Memory.wfFrom 0 m

/-- `MemRead(addr, 1)` (20_memory.md R32): never fails; a byte that neither the image nor an ST has written is a draw
made at this access. -/
def State.memRead (s : State) (access : MemAccess) (addr : Addr) : Byte :=
  match s.mem.byteAt addr.toNat with
  | some v => v
  | none => Config.freeMemory s.draws access

/-- `MemWrite(addr, 1, v)` (20_memory.md R33). -/
def State.memWrite (s : State) (addr : Addr) (v : Byte) : State :=
  { s with mem := s.mem.store addr.toNat v }

/-- The host writes a program image into memory before the CPU runs (70_reset_and_hazards.md R141). -/
def State.loadImage (s : State) : List (Addr × Byte) → State
  | [] => s
  | (addr, v) :: rest => (s.memWrite addr v).loadImage rest

/-! ## Flags, program counter, end of an instruction -/

/-- Write the four flags together. -/
def State.setFlags (s : State) (f : Flags) : State := { s with flags := f }

/-- `pc <- target`, which ends every instruction (R143). The draws of the next instruction are new ones (log 4). -/
def State.goTo (s : State) (target : Addr) : State := { s with pc := target, draws := s.draws + 1 }

/-- `pc <- pc +16 n` (10_state.md R14, R16). -/
def State.advance (s : State) (n : Nat) : State := s.goTo (s.pc + BitVec.ofNat 16 n)

/-! ## Input and output -/

/-- Append an event to the I/O trace (43_io.md R110). -/
def State.emit (s : State) (event : IoEvent) : State := { s with trace := s.trace ++ [event] }

/-- The oracle's answer to `IoIn(kind)` in this state (43_io.md R110). -/
def State.ioAnswer (s : State) (kind : IoKind) : Byte := Config.ioIn s.draws s.trace kind

/-- `R[b] <- IoIn(kind)`, with the event In(kind, v), then the next instruction (43_io.md R110 to R112). -/
def State.inputTo (s : State) (kind : IoKind) (b : Reg) : Result :=
  .next (((s.writeReg b (s.ioAnswer kind)).emit (.input kind (s.ioAnswer kind))).advance 1)

/-- `IoOut(kind, R[b])`: the event Out(kind, v), then the next instruction (43_io.md R110, R113, R114). -/
def State.outputFrom (s : State) (kind : IoKind) (b : Reg) : Result :=
  .next ((s.emit (.output kind (s.readReg .regB b))).advance 1)

/-! ## The model-level fault -/

/-- `raise Fault(ReservedOpcode)` (60_exceptions.md R122): the reason with the pc of the instruction; no state changes. -/
def State.raiseReserved (s : State) : Result := .fault (.reservedOpcode s.pc)

end Sys2Proof.Machine
end

