-- ==== Sys2Proof/Machine/Flags.lean ====
section
/-! DEFINITION. Results and flags of the ALU (40_alu.md, 10_state.md R18), and the condition of the jumps
(42_conditional_jumps.md R90). `n` is the number of the instruction, for the flags that R18 marks `any`. -/

namespace Sys2Proof.Machine

/-- The 9-bit unsigned sum of ADD (R72). The carry flag does not enter it (10_state.md R19; log 11). -/
def sum9 (x y : Byte) : BitVec 9 := x.setWidth 9 + y.setWidth 9

/-- ADD's result, `s[7:0]` (R72). -/
def addResult (x y : Byte) : Byte := (sum9 x y).extractLsb' 0 8

/-- SHL's result, `x[6:0] ++ 0` (R73). -/
def shlResult (x : Byte) : Byte := x.extractLsb' 0 7 ++ 0#1

/-- SHR's result, `0 ++ x[7:1]` (R74). -/
def shrResult (x : Byte) : Byte := 0#1 ++ x.extractLsb' 1 7

/-- "Acc == 0": Z from an 8-bit result (R71). -/
def isZero (r : Byte) : Bool := r == 0x00#8

/-- Flags of ADD and the shifts: C and Z defined, A and E any (10_state.md R18). -/
def carryFlags (n : Nat) (carry : Bool) (r : Byte) : Flags :=
  { c := carry, a := Config.freeFlag n .a, e := Config.freeFlag n .e, z := isZero r }

/-- Flags of ADD: C is `s[8]` (R72). -/
def addFlags (n : Nat) (x y : Byte) : Flags := carryFlags n ((sum9 x y).getLsbD 8) (addResult x y)

/-- Flags of SHL: C is the old bit 7 (R73). -/
def shlFlags (n : Nat) (x : Byte) : Flags := carryFlags n (x.getLsbD 7) (shlResult x)

/-- Flags of SHR: C is the old bit 0 (R74). -/
def shrFlags (n : Nat) (x : Byte) : Flags := carryFlags n (x.getLsbD 0) (shrResult x)

/-- Flags of NOT, AND, OR, XOR: Z defined, C, A and E any (R75 to R78). -/
def logicFlags (n : Nat) (r : Byte) : Flags :=
  { c := Config.freeFlag n .c, a := Config.freeFlag n .a, e := Config.freeFlag n .e, z := isZero r }

/-- Flags of CMP: E is equality, A unsigned greater-than, C and Z any (R79). -/
def cmpFlags (n : Nat) (x y : Byte) : Flags :=
  { c := Config.freeFlag n .c, a := y.ult x, e := x == y, z := Config.freeFlag n .z }

/-- All four flags clear (41_general.md R85). -/
def clearFlags : Flags := ⟨false, false, false, false⟩

/-- Whether some flag selected by the mask `cccc` is 1: bit 3 selects C, bit 2 A, bit 1 E, bit 0 Z (R90). -/
def condition (cccc : BitVec 4) (f : Flags) : Bool :=
  (cccc.getLsbD 3 && f.c) || (cccc.getLsbD 2 && f.a) || (cccc.getLsbD 1 && f.e) || (cccc.getLsbD 0 && f.z)

/-- The end of an ALU instruction that writes a register: the result to RegB, the flags, the next instruction (R70). -/
def State.finishAlu (s : State) (b : Reg) (r : Byte) (f : Flags) : Result :=
  .next (((s.writeReg b r).setFlags f).advance 1)

/-- The end of NOT, AND, OR and XOR (R75 to R78). -/
def State.finishLogic (s : State) (b : Reg) (r : Byte) : Result := s.finishAlu b r (logicFlags s.draws r)

/-- A conditional jump of mask `cccc`: to `addr` if some selected flag is 1, else past its 3 bytes (R90). -/
def State.jumpIf (s : State) (cccc : BitVec 4) (addr : Addr) : Result :=
  if condition cccc s.flags then .next (s.goTo addr) else .next (s.advance 3)

end Sys2Proof.Machine
end

