-- ==== Sys2Proof/Machine/Operands.lean ====
section
/-! DEFINITION. The operand forms (30_encoding.md R56): RegA and RegB as values, a register as an address, and the
immediates, which the decoder has put into the instruction. -/

namespace Sys2Proof.Machine

/-- `zext_16(v)`: how an 8-bit register supplies a 16-bit address (10_state.md R15; log 11). -/
def zext16 (v : Byte) : Addr := 0x00#8 ++ v

/-- RegA's value (00_scope.md R8). -/
def State.regA (s : State) (a : Reg) : Byte := s.readReg .regA a

/-- RegB's value (00_scope.md R8). -/
def State.regB (s : State) (b : Reg) : Byte := s.readReg .regB b

/-- The address in RegA, of LD and ST (41_general.md R80, R81). -/
def State.addrA (s : State) (a : Reg) : Addr := zext16 (s.regA a)

/-- The address in RegB, of JMPR (41_general.md R83). -/
def State.addrB (s : State) (b : Reg) : Addr := zext16 (s.regB b)

end Sys2Proof.Machine
end

