-- ==== Sys2Proof/Machine/Alu.lean ====
section
/-! DEFINITION. The eight ALU instructions (40_alu.md). -/

namespace Sys2Proof.Machine

/-- ADD RegA, RegB (R72). -/
def execAdd (a b : Reg) (s : State) : Result :=
  s.finishAlu b (addResult (s.regA a) (s.regB b)) (addFlags s.draws (s.regA a) (s.regB b))

/-- SHL RegA, RegB (R73). -/
def execShl (a b : Reg) (s : State) : Result := s.finishAlu b (shlResult (s.regA a)) (shlFlags s.draws (s.regA a))

/-- SHR RegA, RegB (R74). -/
def execShr (a b : Reg) (s : State) : Result := s.finishAlu b (shrResult (s.regA a)) (shrFlags s.draws (s.regA a))

/-- NOT RegA, RegB (R75). -/
def execNot (a b : Reg) (s : State) : Result := s.finishLogic b (~~~(s.regA a))

/-- AND RegA, RegB (R76). -/
def execAnd (a b : Reg) (s : State) : Result := s.finishLogic b (s.regA a &&& s.regB b)

/-- OR RegA, RegB (R77). -/
def execOr (a b : Reg) (s : State) : Result := s.finishLogic b (s.regA a ||| s.regB b)

/-- XOR RegA, RegB (R78). -/
def execXor (a b : Reg) (s : State) : Result := s.finishLogic b (s.regA a ^^^ s.regB b)

/-- CMP RegA, RegB (R79): no register is written. -/
def execCmp (a b : Reg) (s : State) : Result :=
  .next ((s.setFlags (cmpFlags s.draws (s.regA a) (s.regB b))).advance 1)

end Sys2Proof.Machine
end

