-- ==== Sys2Proof/Machine/General.lean ====
section
/-! DEFINITION. LD, ST, DTA, JMPR, JMP and CLF (41_general.md). -/

namespace Sys2Proof.Machine

/-- LD RegA, RegB (R80). -/
def execLd (a b : Reg) (s : State) : Result := .next ((s.writeReg b (s.memRead .load (s.addrA a))).advance 1)

/-- ST RegA, RegB (R81). -/
def execSt (a b : Reg) (s : State) : Result := .next ((s.memWrite (s.addrA a) (s.regB b)).advance 1)

/-- DTA RegB, data (R82); the datum is the instruction's second byte. -/
def execDta (b : Reg) (data : Byte) (s : State) : Result := .next ((s.writeReg b data).advance 2)

/-- JMPR RegB (R83). -/
def execJmpr (b : Reg) (s : State) : Result := .next (s.goTo (s.addrB b))

/-- JMP Addr (R84). -/
def execJmp (addr : Addr) (s : State) : Result := .next (s.goTo addr)

/-- CLF (R85). -/
def execClf (s : State) : Result := .next ((s.setFlags clearFlags).advance 1)

end Sys2Proof.Machine
end

