-- ==== Sys2Proof/Machine/Io.lean ====
section
/-! DEFINITION. The four I/O instructions (43_io.md). -/

namespace Sys2Proof.Machine

/-- IND RegB (R111). -/
def execInd (b : Reg) (s : State) : Result := s.inputTo .data b

/-- INA RegB (R112). -/
def execIna (b : Reg) (s : State) : Result := s.inputTo .addr b

/-- OUTD RegB (R113). -/
def execOutd (b : Reg) (s : State) : Result := s.outputFrom .data b

/-- OUTA RegB (R114). -/
def execOuta (b : Reg) (s : State) : Result := s.outputFrom .addr b

end Sys2Proof.Machine
end

