-- ==== Sys2Proof/Machine/Jumps.lean ====
section
/-! DEFINITION. The fifteen conditional jumps, each by its condition mask, and the reserved byte 0x50
(42_conditional_jumps.md). -/

namespace Sys2Proof.Machine

/-- JC Addr (R91). -/
def execJc (addr : Addr) (s : State) : Result := s.jumpIf 0b1000#4 addr

/-- JA Addr (R92). -/
def execJa (addr : Addr) (s : State) : Result := s.jumpIf 0b0100#4 addr

/-- JE Addr (R93). -/
def execJe (addr : Addr) (s : State) : Result := s.jumpIf 0b0010#4 addr

/-- JZ Addr (R94). -/
def execJz (addr : Addr) (s : State) : Result := s.jumpIf 0b0001#4 addr

/-- JCA Addr (R95). -/
def execJca (addr : Addr) (s : State) : Result := s.jumpIf 0b1100#4 addr

/-- JCE Addr (R96). -/
def execJce (addr : Addr) (s : State) : Result := s.jumpIf 0b1010#4 addr

/-- JCZ Addr (R97). -/
def execJcz (addr : Addr) (s : State) : Result := s.jumpIf 0b1001#4 addr

/-- JAE Addr (R98). -/
def execJae (addr : Addr) (s : State) : Result := s.jumpIf 0b0110#4 addr

/-- JAZ Addr (R99). -/
def execJaz (addr : Addr) (s : State) : Result := s.jumpIf 0b0101#4 addr

/-- JEZ Addr (R100). -/
def execJez (addr : Addr) (s : State) : Result := s.jumpIf 0b0011#4 addr

/-- JCAE Addr (R101). -/
def execJcae (addr : Addr) (s : State) : Result := s.jumpIf 0b1110#4 addr

/-- JCAZ Addr (R102). -/
def execJcaz (addr : Addr) (s : State) : Result := s.jumpIf 0b1101#4 addr

/-- JCEZ Addr (R103). -/
def execJcez (addr : Addr) (s : State) : Result := s.jumpIf 0b1011#4 addr

/-- JAEZ Addr (R104). -/
def execJaez (addr : Addr) (s : State) : Result := s.jumpIf 0b0111#4 addr

/-- JCAEZ Addr (R105). -/
def execJcaez (addr : Addr) (s : State) : Result := s.jumpIf 0b1111#4 addr

/-- The reserved byte 0x50 (R106): Fault(ReservedOpcode) with the state as it was; its two address bytes play no part. -/
def execReserved50 (_addr : Addr) (s : State) : Result := s.raiseReserved

end Sys2Proof.Machine
end

