-- ==== Sys2Proof/Machine/Dispatch.lean ====
section
/-! DEFINITION. From each instruction to its meaning, one arm a constructor. -/

namespace Sys2Proof.Machine

def exec (i : Instr) (s : State) : Host.Outcome State Fault Refusal :=
  match i with
  -- ALU (40_alu.md)
  | .add a b => Sys2Proof.Machine.execAdd a b s
  | .shl a b => Sys2Proof.Machine.execShl a b s
  | .shr a b => Sys2Proof.Machine.execShr a b s
  | .not a b => Sys2Proof.Machine.execNot a b s
  | .and a b => Sys2Proof.Machine.execAnd a b s
  | .or a b => Sys2Proof.Machine.execOr a b s
  | .xor a b => Sys2Proof.Machine.execXor a b s
  | .cmp a b => Sys2Proof.Machine.execCmp a b s
  -- general (41_general.md)
  | .ld a b => Sys2Proof.Machine.execLd a b s
  | .st a b => Sys2Proof.Machine.execSt a b s
  | .dta b data => Sys2Proof.Machine.execDta b data s
  | .jmpr b => Sys2Proof.Machine.execJmpr b s
  | .jmp addr => Sys2Proof.Machine.execJmp addr s
  -- conditional jumps (42_conditional_jumps.md)
  | .jc addr => Sys2Proof.Machine.execJc addr s
  | .ja addr => Sys2Proof.Machine.execJa addr s
  | .je addr => Sys2Proof.Machine.execJe addr s
  | .jz addr => Sys2Proof.Machine.execJz addr s
  | .jca addr => Sys2Proof.Machine.execJca addr s
  | .jce addr => Sys2Proof.Machine.execJce addr s
  | .jcz addr => Sys2Proof.Machine.execJcz addr s
  | .jae addr => Sys2Proof.Machine.execJae addr s
  | .jaz addr => Sys2Proof.Machine.execJaz addr s
  | .jez addr => Sys2Proof.Machine.execJez addr s
  | .jcae addr => Sys2Proof.Machine.execJcae addr s
  | .jcaz addr => Sys2Proof.Machine.execJcaz addr s
  | .jcez addr => Sys2Proof.Machine.execJcez addr s
  | .jaez addr => Sys2Proof.Machine.execJaez addr s
  | .jcaez addr => Sys2Proof.Machine.execJcaez addr s
  | .clf => Sys2Proof.Machine.execClf s
  -- input and output (43_io.md)
  | .ind b => Sys2Proof.Machine.execInd b s
  | .ina b => Sys2Proof.Machine.execIna b s
  | .outd b => Sys2Proof.Machine.execOutd b s
  | .outa b => Sys2Proof.Machine.execOuta b s
  -- reserved (42_conditional_jumps.md R106)
  | .reserved50 addr => Sys2Proof.Machine.execReserved50 addr s

end Sys2Proof.Machine
end

