-- ==== Sys2Proof/WellFormed.lean ====
section
/-! DEFINITION. Which terms of Instr a program may use. The operand types of Instr admit exactly the operands the
encodings admit (any register in any position, R10; any data8 and any addr16, 30_encoding.md R59), so the one check
is that the term is an instruction and not the reserved encoding. -/

namespace Sys2Proof

/-- An instruction of the 33 mnemonics (R56). The reserved byte 0x50 is none: "a program must not use the byte"
(42_conditional_jumps.md R106; log 13). -/
def Instr.wellFormed : Instr → Bool
  | .reserved50 _ => false
  | .add _ _ | .shl _ _ | .shr _ _ | .not _ _ | .and _ _ | .or _ _ | .xor _ _ | .cmp _ _ => true
  | .ld _ _ | .st _ _ | .dta _ _ | .jmpr _ | .jmp _ | .clf => true
  | .jc _ | .ja _ | .je _ | .jz _ | .jca _ | .jce _ | .jcz _ | .jae _ | .jaz _ | .jez _ => true
  | .jcae _ | .jcaz _ | .jcez _ | .jaez _ | .jcaez _ => true
  | .ind _ | .ina _ | .outd _ | .outa _ => true

end Sys2Proof
end

