-- ==== Sys2Proof/Decode.lean ====
section
/-! DEFINITION. From bytes to instructions and back (30_encoding.md). The decoder follows R62 and reads an
instruction's bytes from a stream; the encoder follows the formats of R52 to R54 and emits zeros in ignored bits
(R55). -/

namespace Sys2Proof

/-! ## Fields of the opcode byte -/

/-- The register a 2-bit field names (10_state.md R10). -/
def Reg.ofBits (v : BitVec 2) : Reg :=
  match v.toNat with
  | 0 => .r0
  | 1 => .r1
  | 2 => .r2
  | _ => .r3

/-- The 2-bit number of a register (10_state.md R10). -/
def Reg.bits : Reg → BitVec 2
  | .r0 => 0b00#2
  | .r1 => 0b01#2
  | .r2 => 0b10#2
  | .r3 => 0b11#2

/-- Bits 7:4 of the opcode byte (R50). -/
def highNibble (op : Byte) : BitVec 4 := op.extractLsb' 4 4

/-- Bits 3:0 of the opcode byte (R50): the condition mask of a conditional jump (R54). -/
def lowNibble (op : Byte) : BitVec 4 := op.extractLsb' 0 4

/-- RegA, bits 3:2 of the opcode byte (R52). -/
def fieldA (op : Byte) : Reg := Reg.ofBits (op.extractLsb' 2 2)

/-- RegB, bits 1:0 of the opcode byte (R52, R53). -/
def fieldB (op : Byte) : Reg := Reg.ofBits (op.extractLsb' 0 2)

/-- A 16-bit immediate from its two bytes: the first is the high byte (20_memory.md R34). -/
def addr16 (hi lo : Byte) : Addr := hi ++ lo

/-! ## The decoder -/

/-- The ALU instruction of operation code `op[6:4]` (R62, 40_alu.md R70). -/
def decodeAlu (aluOp : BitVec 3) (a b : Reg) : Instr :=
  match aluOp.toNat with
  | 0 => .add a b
  | 1 => .shl a b
  | 2 => .shr a b
  | 3 => .not a b
  | 4 => .and a b
  | 5 => .or a b
  | 6 => .xor a b
  | _ => .cmp a b

/-- The jump of condition mask `cccc`, by the opcode map's rows 0x50 to 0x5F (R58, R61). -/
def decodeCond (cccc : BitVec 4) (addr : Addr) : Instr :=
  match cccc.toNat with
  | 0x0 => .reserved50 addr
  | 0x1 => .jz addr
  | 0x2 => .je addr
  | 0x3 => .jez addr
  | 0x4 => .ja addr
  | 0x5 => .jaz addr
  | 0x6 => .jae addr
  | 0x7 => .jaez addr
  | 0x8 => .jc addr
  | 0x9 => .jcz addr
  | 0xA => .jce addr
  | 0xB => .jcez addr
  | 0xC => .jca addr
  | 0xD => .jcaz addr
  | 0xE => .jcae addr
  | _ => .jcaez addr

/-- The I/O instruction of selector `op[3:2]` (R53, R62). -/
def decodeIo (selector : BitVec 2) (b : Reg) : Instr :=
  match selector.toNat with
  | 0 => .ind b
  | 1 => .ina b
  | 2 => .outd b
  | _ => .outa b

/-- R62: the instruction of opcode byte `op`, whose second and third bytes, where it has them, are `second` and
`third`. Every opcode byte is in some row of R58, so it is total. -/
def decodeOp (op second third : Byte) : Instr :=
  if op.getLsbD 7 then decodeAlu (op.extractLsb' 4 3) (fieldA op) (fieldB op)
  else
    match (highNibble op).toNat with
    | 0 => .ld (fieldA op) (fieldB op)
    | 1 => .st (fieldA op) (fieldB op)
    | 2 => .dta (fieldB op) second
    | 3 => .jmpr (fieldB op)
    | 4 => .jmp (addr16 second third)
    | 5 => decodeCond (lowNibble op) (addr16 second third)
    | 6 => .clf
    | _ => decodeIo (op.extractLsb' 2 2) (fieldB op)

/-- The instruction whose byte number `k` is `byte k`. Byte 1 and byte 2 play a part only where the opcode byte calls
for them (R51). -/
def decodeStream (byte : Nat → Byte) : Instr := decodeOp (byte 0) (byte 1) (byte 2)

/-- The length in bytes of the instruction with this opcode byte, from bits 7:4 alone (R51). -/
def instrLength (op : Byte) : Nat :=
  match (highNibble op).toNat with
  | 2 => 2
  | 4 => 3
  | 5 => 3
  | _ => 1

/-- Why a list of bytes is refused by `decode`. -/
inductive DecodeError where
  /-- There is no byte at all. -/
  | noOpcode
  /-- The bytes end before the instruction with this opcode byte does. -/
  | truncated (op : Byte)
  deriving DecidableEq, Repr

/-- Decode the instruction at the head of a list of bytes and give the bytes after it. -/
def decode (bytes : List Byte) : Except DecodeError (Instr × List Byte) :=
  match bytes with
  | [] => .error .noOpcode
  | op :: rest =>
    if rest.length + 1 < instrLength op then .error (.truncated op)
    else .ok (decodeStream (fun k => bytes.getD k 0#8), bytes.drop (instrLength op))

/-! ## The encoder -/

/-- Format RR (R52): high nibble, a, b. -/
def encodeRR (high : BitVec 4) (a b : Reg) : List Byte := [(high ++ a.bits ++ b.bits : BitVec 8)]

/-- The opcode byte of format R (R53): high nibble, bits 3:2, b. -/
def opcodeR (high : BitVec 4) (selector : BitVec 2) (b : Reg) : Byte := (high ++ selector ++ b.bits : BitVec 8)

/-- Format J (R54): high nibble and low nibble, then the address, high byte first. -/
def encodeJ (high low : BitVec 4) (addr : Addr) : List Byte :=
  [(high ++ low : BitVec 8), addr.extractLsb' 8 8, addr.extractLsb' 0 8]

/-- The bytes of an instruction, with zeros in the ignored bits (R52 to R55, R57). -/
def encode : Instr → List Byte
  | .ld a b => encodeRR 0b0000#4 a b
  | .st a b => encodeRR 0b0001#4 a b
  | .dta b data => [opcodeR 0b0010#4 0b00#2 b, data]
  | .jmpr b => [opcodeR 0b0011#4 0b00#2 b]
  | .jmp addr => encodeJ 0b0100#4 0b0000#4 addr
  | .reserved50 addr => encodeJ 0b0101#4 0b0000#4 addr
  | .jc addr => encodeJ 0b0101#4 0b1000#4 addr
  | .ja addr => encodeJ 0b0101#4 0b0100#4 addr
  | .je addr => encodeJ 0b0101#4 0b0010#4 addr
  | .jz addr => encodeJ 0b0101#4 0b0001#4 addr
  | .jca addr => encodeJ 0b0101#4 0b1100#4 addr
  | .jce addr => encodeJ 0b0101#4 0b1010#4 addr
  | .jcz addr => encodeJ 0b0101#4 0b1001#4 addr
  | .jae addr => encodeJ 0b0101#4 0b0110#4 addr
  | .jaz addr => encodeJ 0b0101#4 0b0101#4 addr
  | .jez addr => encodeJ 0b0101#4 0b0011#4 addr
  | .jcae addr => encodeJ 0b0101#4 0b1110#4 addr
  | .jcaz addr => encodeJ 0b0101#4 0b1101#4 addr
  | .jcez addr => encodeJ 0b0101#4 0b1011#4 addr
  | .jaez addr => encodeJ 0b0101#4 0b0111#4 addr
  | .jcaez addr => encodeJ 0b0101#4 0b1111#4 addr
  | .clf => [(0b0110#4 ++ 0b0000#4 : BitVec 8)]
  | .ind b => [opcodeR 0b0111#4 0b00#2 b]
  | .ina b => [opcodeR 0b0111#4 0b01#2 b]
  | .outd b => [opcodeR 0b0111#4 0b10#2 b]
  | .outa b => [opcodeR 0b0111#4 0b11#2 b]
  | .add a b => encodeRR 0b1000#4 a b
  | .shl a b => encodeRR 0b1001#4 a b
  | .shr a b => encodeRR 0b1010#4 a b
  | .not a b => encodeRR 0b1011#4 a b
  | .and a b => encodeRR 0b1100#4 a b
  | .or a b => encodeRR 0b1101#4 a b
  | .xor a b => encodeRR 0b1110#4 a b
  | .cmp a b => encodeRR 0b1111#4 a b

/-- The length of an instruction in bytes (R51), by which the pc advances (10_state.md R14). -/
def Instr.length : Instr → Nat
  | .dta _ _ => 2
  | .jmp _ | .reserved50 _ => 3
  | .jc _ | .ja _ | .je _ | .jz _ | .jca _ | .jce _ | .jcz _ | .jae _ | .jaz _ | .jez _ => 3
  | .jcae _ | .jcaz _ | .jcez _ | .jaez _ | .jcaez _ => 3
  | .add _ _ | .shl _ _ | .shr _ _ | .not _ _ | .and _ _ | .or _ _ | .xor _ _ | .cmp _ _ => 1
  | .ld _ _ | .st _ _ | .jmpr _ | .clf | .ind _ | .ina _ | .outd _ | .outa _ => 1

/-! ## The opcode table -/

/-- One row of the opcode map (R58): the opcode bytes `op` with `op &&& mask = pattern`. -/
structure OpcodeRow where
  mnemonic : String
  pattern : Byte
  mask : Byte
  deriving DecidableEq, Repr

/-- The opcode bytes of a row. -/
def OpcodeRow.covers (row : OpcodeRow) (op : Byte) : Bool := op &&& row.mask == row.pattern

/-- The complete opcode map (R58), in the order of its opcode bytes. -/
def opcodeTable : List OpcodeRow :=
  [⟨"LD", 0x00#8, 0xF0#8⟩, ⟨"ST", 0x10#8, 0xF0#8⟩, ⟨"DTA", 0x20#8, 0xF0#8⟩, ⟨"JMPR", 0x30#8, 0xF0#8⟩,
    ⟨"JMP", 0x40#8, 0xF0#8⟩, ⟨"reserved_0x50", 0x50#8, 0xFF#8⟩, ⟨"JZ", 0x51#8, 0xFF#8⟩, ⟨"JE", 0x52#8, 0xFF#8⟩,
    ⟨"JEZ", 0x53#8, 0xFF#8⟩, ⟨"JA", 0x54#8, 0xFF#8⟩, ⟨"JAZ", 0x55#8, 0xFF#8⟩, ⟨"JAE", 0x56#8, 0xFF#8⟩,
    ⟨"JAEZ", 0x57#8, 0xFF#8⟩, ⟨"JC", 0x58#8, 0xFF#8⟩, ⟨"JCZ", 0x59#8, 0xFF#8⟩, ⟨"JCE", 0x5A#8, 0xFF#8⟩] ++
  [⟨"JCEZ", 0x5B#8, 0xFF#8⟩, ⟨"JCA", 0x5C#8, 0xFF#8⟩, ⟨"JCAZ", 0x5D#8, 0xFF#8⟩, ⟨"JCAE", 0x5E#8, 0xFF#8⟩,
    ⟨"JCAEZ", 0x5F#8, 0xFF#8⟩, ⟨"CLF", 0x60#8, 0xF0#8⟩, ⟨"IND", 0x70#8, 0xFC#8⟩, ⟨"INA", 0x74#8, 0xFC#8⟩,
    ⟨"OUTD", 0x78#8, 0xFC#8⟩, ⟨"OUTA", 0x7C#8, 0xFC#8⟩, ⟨"ADD", 0x80#8, 0xF0#8⟩, ⟨"SHL", 0x90#8, 0xF0#8⟩,
    ⟨"SHR", 0xA0#8, 0xF0#8⟩, ⟨"NOT", 0xB0#8, 0xF0#8⟩, ⟨"AND", 0xC0#8, 0xF0#8⟩, ⟨"OR", 0xD0#8, 0xF0#8⟩,
    ⟨"XOR", 0xE0#8, 0xF0#8⟩, ⟨"CMP", 0xF0#8, 0xF0#8⟩]

/-- The table's mnemonic of an instruction (R56; the reserved byte's row has a name of the table's own). -/
def Instr.mnemonic : Instr → String
  | .add _ _ => "ADD"
  | .shl _ _ => "SHL"
  | .shr _ _ => "SHR"
  | .not _ _ => "NOT"
  | .and _ _ => "AND"
  | .or _ _ => "OR"
  | .xor _ _ => "XOR"
  | .cmp _ _ => "CMP"
  | .ld _ _ => "LD"
  | .st _ _ => "ST"
  | .dta _ _ => "DTA"
  | .jmpr _ => "JMPR"
  | .jmp _ => "JMP"
  | .jc _ => "JC"
  | .ja _ => "JA"
  | .je _ => "JE"
  | .jz _ => "JZ"
  | .jca _ => "JCA"
  | .jce _ => "JCE"
  | .jcz _ => "JCZ"
  | .jae _ => "JAE"
  | .jaz _ => "JAZ"
  | .jez _ => "JEZ"
  | .jcae _ => "JCAE"
  | .jcaz _ => "JCAZ"
  | .jcez _ => "JCEZ"
  | .jaez _ => "JAEZ"
  | .jcaez _ => "JCAEZ"
  | .clf => "CLF"
  | .ind _ => "IND"
  | .ina _ => "INA"
  | .outd _ => "OUTD"
  | .outa _ => "OUTA"
  | .reserved50 _ => "reserved_0x50"

/-! ## Assembler text -/

/-- The name of a register (10_state.md R10). -/
def Reg.name : Reg → String
  | .r0 => "R0"
  | .r1 => "R1"
  | .r2 => "R2"
  | .r3 => "R3"

/-- The low `digits` hexadecimal digits of `n`, most significant first. -/
def hexDigits (digits n : Nat) : String :=
  match digits with
  | 0 => ""
  | k + 1 =>
    hexDigits k (n / 16) ++
      ["0", "1", "2", "3", "4", "5", "6", "7", "8", "9", "A", "B", "C", "D", "E", "F"].getD (n % 16) ""

/-- The operands of an instruction as the listings write them: the source or address register first, the destination or
data register second; literals in C-style hexadecimal (R60). -/
def Instr.operandText : Instr → String
  | .add a b | .shl a b | .shr a b | .not a b | .and a b | .or a b | .xor a b | .cmp a b | .ld a b | .st a b =>
    " " ++ a.name ++ ", " ++ b.name
  | .dta b data => " " ++ b.name ++ ", 0x" ++ hexDigits 2 data.toNat
  | .jmpr b | .ind b | .ina b | .outd b | .outa b => " " ++ b.name
  | .jmp addr | .reserved50 addr => " 0x" ++ hexDigits 4 addr.toNat
  | .jc addr | .ja addr | .je addr | .jz addr | .jca addr | .jce addr | .jcz addr | .jae addr | .jaz addr
  | .jez addr | .jcae addr | .jcaz addr | .jcez addr | .jaez addr | .jcaez addr => " 0x" ++ hexDigits 4 addr.toNat
  | .clf => ""

/-- The line of an instruction in the only assembler syntax the source gives (R60). The reserved byte has no mnemonic
there; it is written with the opcode table's name for its row. -/
def Instr.assembly (i : Instr) : String := i.mnemonic ++ i.operandText

/-! ## The opcode table's numbering of bits -/

/-- Byte number `k` of an instruction of `nbits` bits numbered with bit 0 the least significant bit of the first byte;
every bit above `nbits` is 0. -/
def tableByte (nbits w k : Nat) : Byte := BitVec.ofNat 8 (w % 2 ^ nbits / 256 ^ k)

/-- The instruction the decoder reads from an instruction whose bits are `w`, laid out as its bytes at rising
addresses (up to the longest length, 3 bytes, R51). -/
def decodeTableWord (nbits w : Nat) : Option Instr :=
  match decode [tableByte nbits w 0, tableByte nbits w 1, tableByte nbits w 2] with
  | .ok (i, _) => some i
  | .error _ => none

end Sys2Proof
end

