-- ==== Sys2Proof/Machine/Fetch.lean ====
section
/-! DEFINITION. Instruction fetch (20_memory.md R31) and the loading of one instruction where the fetch finds it. -/

namespace Sys2Proof.Machine

/-- The address of byte `k` of the instruction at the pc, modulo 2^16 (10_state.md R16). -/
def State.codeAddr (s : State) (k : Nat) : Addr := s.pc + BitVec.ofNat 16 k

/-- Byte `k` of the instruction at the pc (R31). Fetch reads the memory that LD and ST use, and has no
effect (log 12). -/
def State.fetchByte (s : State) (k : Nat) : Byte := s.memRead (.fetch k) (s.codeAddr k)

/-- The instruction at the pc (30_encoding.md R62, 70_reset_and_hazards.md R143). -/
def State.fetchInstr (s : State) : Instr := decodeStream s.fetchByte

/-- The state with an instruction's bits, numbered as the opcode table numbers them, loaded at the pc: its three bytes
are a program image (R141), and there is no fault mark that would forbid the fetch. -/
def State.loadWord (s : State) (nbits w : Nat) : State :=
  { s with fault := none }.loadImage
    [(s.codeAddr 0, tableByte nbits w 0), (s.codeAddr 1, tableByte nbits w 1), (s.codeAddr 2, tableByte nbits w 2)]

end Sys2Proof.Machine
end

