-- ==== Sys2Proof/Machine/Step.lean ====
section
/-! DEFINITION. One step of the machine (70_reset_and_hazards.md R143). -/

namespace Sys2Proof.Machine

/-- R143: fetch, decode and perform the instruction at the pc. A faulted state has no further step
(60_exceptions.md R122): it answers its own fault again. -/
def step (s : State) : Host.Outcome State Fault Refusal :=
  match s.fault with
  | some f => .fault f
  | none => exec s.fetchInstr s

/-- `s` with the instruction whose bits the opcode table numbers as `w` loaded where the next step fetches (log 10). -/
def State.withFetchWord (s : State) (nbits w : Nat) : State := s.loadWord nbits w

end Sys2Proof.Machine
end

