-- ==== Sys2Proof/Safety.lean ====
section
/-! DEFINITION. What counts as a safe run, and the terms in which claims speak of instructions and states. -/

namespace Sys2Proof.Machine

/-! ## Runs and their end -/

/-- `k` steps, stopping at the first fault. -/
def run (k : Nat) (s : State) : Host.Outcome State Fault Refusal :=
  match k with
  | 0 => .next s
  | k + 1 =>
    match step s with
    | .next u => run k u
    | .fault f => .fault f
    | .refused r => .refused r

/-- The state a run stops in: as before the faulting instruction, with the mark (60_exceptions.md R122). -/
def State.stopped (s : State) (f : Fault) : State := { s with fault := some f }

/-- The state after one step, the faulted state where the step faults (R122). -/
def State.after (s : State) : State :=
  match step s with
  | .next t => t
  | .fault f => s.stopped f
  | .refused _ => s

/-- The invariant of every run: memory is in canonical form, and no fault mark stands in a state that a step left
(R122: a faulted state has no further step). -/
def State.Inv (s : State) : Prop := s.mem.wf = true ∧ s.fault = none

/-- The bytes at the pc, modulo 2^16 (10_state.md R16), are `bytes`, each written by the image or an ST. -/
def State.holdsCode (s : State) (bytes : List Byte) : Prop :=
  ∀ k v, bytes[k]? = some v → s.mem.byteAt ((s.pc.toNat + k) % 65536) = some v

/-- The end-of-run marker (70_reset_and_hazards.md R144): the pc holds the address of a JMP (opcode byte 0x40 to 0x4F)
whose immediate is that address. -/
def State.atEndMarker (s : State) : Prop :=
  ∃ op hi lo : Byte, 0x40 ≤ op.toNat ∧ op.toNat ≤ 0x4F ∧ s.holdsCode [op, hi, lo] ∧
    256 * hi.toNat + lo.toNat = s.pc.toNat

/-- The two states differ at most in what their unwritten registers hold (10_state.md R13). -/
def SameUpToUnwritten (s t : State) : Prop :=
  t = { s with regs := t.regs } ∧ ∀ r, s.written.get r = true → t.regs.get r = s.regs.get r

/-! ## What an instruction reads and writes -/

/-- The register an instruction writes (10_state.md R12, column "writes"). -/
def destReg : Instr → Option Reg
  | .add _ b | .and _ b | .or _ b | .xor _ b | .shl _ b | .shr _ b | .not _ b => some b
  | .ld _ b | .dta b _ | .ind b | .ina b => some b
  | .cmp _ _ | .st _ _ | .jmpr _ | .jmp _ | .clf | .outd _ | .outa _ | .reserved50 _ => none
  | .jc _ | .ja _ | .je _ | .jz _ | .jca _ | .jce _ | .jcz _ | .jae _ | .jaz _ | .jez _ => none
  | .jcae _ | .jcaz _ | .jcez _ | .jaez _ | .jcaez _ => none

/-- The registers an instruction reads (10_state.md R12, column "reads"). -/
def readRegs : Instr → List Reg
  | .add a b | .and a b | .or a b | .xor a b | .cmp a b | .st a b => [a, b]
  | .shl a _ | .shr a _ | .not a _ | .ld a _ => [a]
  | .jmpr b | .outd b | .outa b => [b]
  | .dta _ _ | .ind _ | .ina _ | .jmp _ | .clf | .reserved50 _ => []
  | .jc _ | .ja _ | .je _ | .jz _ | .jca _ | .jce _ | .jcz _ | .jae _ | .jaz _ | .jez _ => []
  | .jcae _ | .jcaz _ | .jcez _ | .jaez _ | .jcaez _ => []

/-- Whether an instruction writes the flags (10_state.md R18): the ALU instructions and CLF write all four. -/
def writesFlags : Instr → Bool
  | .add _ _ | .shl _ _ | .shr _ _ | .not _ _ | .and _ _ | .or _ _ | .xor _ _ | .cmp _ _ | .clf => true
  | .ld _ _ | .st _ _ | .dta _ _ | .jmpr _ | .jmp _ | .ind _ | .ina _ | .outd _ | .outa _ | .reserved50 _ => false
  | .jc _ | .ja _ | .je _ | .jz _ | .jca _ | .jce _ | .jcz _ | .jae _ | .jaz _ | .jez _ => false
  | .jcae _ | .jcaz _ | .jcez _ | .jaez _ | .jcaez _ => false

/-- One of the fifteen conditional jumps (42_conditional_jumps.md R90). -/
def isCondJump : Instr → Bool
  | .jc _ | .ja _ | .je _ | .jz _ | .jca _ | .jce _ | .jcz _ | .jae _ | .jaz _ | .jez _ => true
  | .jcae _ | .jcaz _ | .jcez _ | .jaez _ | .jcaez _ => true
  | .add _ _ | .shl _ _ | .shr _ _ | .not _ _ | .and _ _ | .or _ _ | .xor _ _ | .cmp _ _ => false
  | .ld _ _ | .st _ _ | .dta _ _ | .jmpr _ | .jmp _ | .clf => false
  | .ind _ | .ina _ | .outd _ | .outa _ | .reserved50 _ => false

/-- JMPR, JMP or a conditional jump (60_exceptions.md R126). -/
def isJump (i : Instr) : Bool :=
  match i with
  | .jmpr _ => true
  | .jmp _ => true
  | _ => isCondJump i

/-- The memory address an instruction stores to: ST's, computed as its meaning computes it (41_general.md R81). -/
def storeAddr (i : Instr) (s : State) : Option Addr :=
  match i with
  | .st a _ => some (s.addrA a)
  | _ => none

/-- The event an instruction appends to the I/O trace (43_io.md R110). -/
def ioEvent (i : Instr) (s : State) : Option IoEvent :=
  match i with
  | .ind _ => some (.input .data (s.ioAnswer .data))
  | .ina _ => some (.input .addr (s.ioAnswer .addr))
  | .outd b => some (.output .data (s.regB b))
  | .outa b => some (.output .addr (s.regB b))
  | _ => none

end Sys2Proof.Machine
end

