-- ==== Sys2Proof/Certificates/Slice0/Obligations.lean ====
section
/-! DEFINITION. The statements for the provers: what the numbered rules of spec/ say the machine does. -/

open Sys2Proof Sys2Proof.Machine

namespace Sys2Proof.Claims

/-- The one-byte words `first + 4*a + b` decode to the two-register instruction `i a b`, whatever follows
(30_encoding.md R52). -/
def encodedRR (first : Nat) (i : Reg → Reg → Instr) : Prop :=
  ∀ a b rest, decode (BitVec.ofNat 8 (first + 4 * a.bits.toNat + b.bits.toNat) :: rest) = .ok (i a b, rest)

/-- The one-byte words `first + b` decode to the one-register instruction `i b`, whatever follows (30_encoding.md R53). -/
def encodedR (first : Nat) (i : Reg → Instr) : Prop :=
  ∀ b rest, decode (BitVec.ofNat 8 (first + b.bits.toNat) :: rest) = .ok (i b, rest)

/-- The words `op hi lo` decode to the jump `i` with the address `hi ++ lo` (30_encoding.md R54). -/
def encodedJ (op : Byte) (i : Addr → Instr) : Prop :=
  ∀ hi lo rest, decode (op :: hi :: lo :: rest) = .ok (i (hi ++ lo : BitVec 16), rest)

/-- `s` after an instruction of `len` bytes that writes `v` to register `b` and leaves the flags as `f`, and changes
nothing else. -/
def wroteReg (s : State) (b : Reg) (v : Byte) (f : Flags) (len : Addr) : State :=
  { s with regs := s.regs.set b v, written := s.written.set b true, flags := f, pc := s.pc + len, draws := s.draws + 1 }

/-- The flags after AND, OR and XOR with result `r`: Z says whether it is zero, C, A and E are free (40_alu.md R76). -/
def zeroFlagOnly (s : State) (r : Nat) : Flags :=
  { c := Config.freeFlag s.draws .c, a := Config.freeFlag s.draws .a, e := Config.freeFlag s.draws .e,
    z := decide (r = 0) }

/-- A conditional jump: its encoding, and that it always completes, going to `addr` exactly when `taken` holds of the
flags and past its three bytes otherwise, with nothing else changed (42_conditional_jumps.md R90). -/
def jumpRule (op : Byte) (i : Addr → Instr) (taken : Flags → Bool) : Prop :=
  encodedJ op i ∧
    ∀ addr s, exec (i addr) s =
      .next { s with pc := if taken s.flags then addr else s.pc + 3#16, draws := s.draws + 1 }

end Sys2Proof.Claims

open Sys2Proof.Claims

/-! ## Encoding -/

/-- 30_encoding.md R52 to R55 and R58: one word of each family, written out from its pattern, decodes to the
instruction it stands for. -/
def Obligations.DecodesListedWords : Prop :=
  decode [0b10001001#8] = .ok (.add .r2 .r1, []) ∧ decode [0b10010011#8] = .ok (.shl .r0 .r3, []) ∧
  decode [0b10101011#8] = .ok (.shr .r2 .r3, []) ∧ decode [0b00000001#8] = .ok (.ld .r0 .r1, []) ∧
  decode [0b00011011#8] = .ok (.st .r2 .r3, []) ∧ decode [0b00100111#8, 0x9C#8] = .ok (.dta .r3 0x9C#8, []) ∧
  decode [0b00111110#8] = .ok (.jmpr .r2, []) ∧
  decode [0b01001111#8, 0x12#8, 0x34#8] = .ok (.jmp 0x1234#16, []) ∧
  decode [0b01011010#8, 0x02#8, 0x40#8] = .ok (.jce 0x0240#16, []) ∧ decode [0b01101010#8] = .ok (.clf, []) ∧
  decode [0b01110010#8] = .ok (.ind .r2, []) ∧ decode [0b01111111#8] = .ok (.outa .r3, []) ∧
  decode [0b01010000#8, 0x00#8, 0x00#8] = .ok (.reserved50 0x0000#16, [])

/-- 30_encoding.md R52 to R54, R57, R58: the bytes of every instruction (the reserved encoding among them) decode to
it, whatever bytes follow. -/
def Obligations.DecodeEncodeRoundTrip : Prop :=
  ∀ (i : Instr) (rest : List Byte), decode (encode i ++ rest) = .ok (i, rest)

/-- 30_encoding.md R58, R62: each opcode byte is covered by exactly one row of the opcode table, and the decoder gives
that row's instruction. -/
def Obligations.OpcodeTableCoversEachByteOnce : Prop :=
  ∀ byte : Nat → Byte,
    (opcodeTable.filter (fun row => row.covers (byte 0))).map OpcodeRow.mnemonic = [(decodeStream byte).mnemonic]

/-- 30_encoding.md R51: the length, from bits 7:4 of the opcode byte alone; decoding takes exactly that many bytes. That
it refuses a list that is shorter, and no other, is the model's own choice (log 13): R51 says nothing of short lists. -/
def Obligations.InstructionLengthByHighNibble : Prop :=
  ∀ (op : Byte) (rest : List Byte),
    instrLength op = (if op.toNat / 16 = 2 then 2 else if op.toNat / 16 = 4 ∨ op.toNat / 16 = 5 then 3 else 1) ∧
    (rest.length + 1 < instrLength op → decode (op :: rest) = .error (.truncated op)) ∧
    (instrLength op ≤ rest.length + 1 →
      ∃ i, decode (op :: rest) = .ok (i, rest.drop (instrLength op - 1)) ∧ i.length = instrLength op)

/-- 30_encoding.md R55: the ignored bits of DTA, JMPR, JMP and CLF can be any; the encoder emits zeros. -/
def Obligations.IgnoredBitsDecodeAlike : Prop :=
  (∀ (x : BitVec 2) (b : Reg) (data : Byte) (rest : List Byte),
    decode ((0b0010#4 ++ x ++ b.bits : BitVec 8) :: data :: rest) = .ok (.dta b data, rest) ∧
    decode ((0b0011#4 ++ x ++ b.bits : BitVec 8) :: rest) = .ok (.jmpr b, rest)) ∧
  (∀ (x : BitVec 4) (hi lo : Byte) (rest : List Byte),
    decode ((0b0100#4 ++ x : BitVec 8) :: hi :: lo :: rest) = .ok (.jmp (hi ++ lo : BitVec 16), rest) ∧
    decode ((0b0110#4 ++ x : BitVec 8) :: rest) = .ok (.clf, rest)) ∧
  (∀ (b : Reg) (data : Byte), encode (.dta b data) = [BitVec.ofNat 8 (0x20 + b.bits.toNat), data] ∧
    encode (.jmpr b) = [BitVec.ofNat 8 (0x30 + b.bits.toNat)]) ∧
  (∀ hi lo : Byte, encode (.jmp (hi ++ lo : BitVec 16)) = [0x40#8, hi, lo]) ∧ encode .clf = [0x60#8]

/-- 30_encoding.md R59: 0x50 is the only opcode byte that is no instruction, whatever bytes follow it. -/
def Obligations.OnlyByte50IsReserved : Prop :=
  ∀ byte : Nat → Byte, (decodeStream byte).wellFormed = false ↔ byte 0 = 0x50#8

/-- 30_encoding.md R61: a conditional jump's mnemonic is "J" and the letters of the flags it tests, in the order C, A, E,
Z, one for each set bit of the opcode's low nibble. -/
def Obligations.JumpMnemonicNamesItsFlags : Prop :=
  ∀ (cccc : BitVec 4) (addr : Addr), cccc ≠ 0#4 →
    (decodeCond cccc addr).mnemonic = "J" ++ (if cccc.getLsbD 3 then "C" else "") ++
      (if cccc.getLsbD 2 then "A" else "") ++ (if cccc.getLsbD 1 then "E" else "") ++
      (if cccc.getLsbD 0 then "Z" else "")

/-! ## Step, fetch and fault -/

/-- 70_reset_and_hazards.md R143, 20_memory.md R31: where the bytes at the pc (modulo 2^16) decode to an instruction, a
step of a state that is not faulted is exactly that instruction at that state; the pc moves only as the instruction's
own meaning says. -/
def Obligations.StepRunsDecodedInstruction : Prop :=
  ∀ (s : State) (bytes rest : List Byte) (i : Instr),
    s.fault = none → s.holdsCode bytes → decode bytes = .ok (i, rest) → step s = exec i s

/-- 20_memory.md R31, R32 and 10_state.md R16: byte `k` of the instruction is the byte listed at `pc + k` modulo 2^16,
or a free value of this instruction and this access where neither the image nor an ST has written it. -/
def Obligations.FetchWrapsAndDrawsUnwrittenBytes : Prop :=
  ∀ s : State, s.fault = none →
    step s = exec (decodeStream fun k =>
      (s.mem.byteAt ((s.pc.toNat + k) % 65536)).getD (Config.freeMemory s.draws (.fetch k))) s

/-- 60_exceptions.md R122: the opcode byte 0x50 at the pc raises ReservedOpcode with that pc, before any change, and the
state left is the state before with the mark. R120, 70_reset_and_hazards.md R143: no other opcode byte faults, and each
completes. That a marked state answers its own fault at every step and keeps it is how the model reads R122's "has no
further step" in a step function that must answer something (log 8). -/
def Obligations.FaultMarkStopsTheMachine : Prop :=
  (∀ (s : State) (f : Fault), s.fault = some f → step s = .fault f ∧ s.after = s) ∧
  (∀ s : State, s.fault = none → s.fetchByte 0 = 0x50#8 →
    step s = .fault (.reservedOpcode s.pc) ∧ s.after = { s with fault := some (.reservedOpcode s.pc) }) ∧
  (∀ s : State, s.fault = none → s.fetchByte 0 ≠ 0x50#8 → ∃ t, step s = .next t ∧ t.fault = none)

/-- 42_conditional_jumps.md R106: byte 0x50 is three bytes long and its execution raises ReservedOpcode in every state. -/
def Obligations.ReservedEncodingAlwaysFaults : Prop :=
  encodedJ 0x50#8 .reserved50 ∧
    ∀ (addr : Addr) (s : State), exec (.reserved50 addr) s = .fault (.reservedOpcode s.pc)

/-- 60_exceptions.md R120: every instruction but the reserved encoding completes, in every state. -/
def Obligations.EveryInstructionCompletes : Prop :=
  ∀ (i : Instr) (s : State), i.wellFormed = true → ∃ t, exec i s = .next t ∧ t.fault = s.fault

/-! ## ALU -/

/-- 40_alu.md R72 (ADD). -/
def Obligations.AddWritesSumAndCarry : Prop :=
  encodedRR 0x80 .add ∧
  ∀ (a b : Reg) (s : State), exec (.add a b) s = .next (wroteReg s b
    (BitVec.ofNat 8 ((s.regA a).toNat + (s.regB b).toNat))
    { c := decide (256 ≤ (s.regA a).toNat + (s.regB b).toNat), a := Config.freeFlag s.draws .a,
      e := Config.freeFlag s.draws .e, z := decide (((s.regA a).toNat + (s.regB b).toNat) % 256 = 0) } 1#16)

/-- 40_alu.md R73 (SHL). -/
def Obligations.ShlShiftsBit7IntoCarry : Prop :=
  encodedRR 0x90 .shl ∧
  ∀ (a b : Reg) (s : State), exec (.shl a b) s = .next (wroteReg s b (BitVec.ofNat 8 (2 * (s.regA a).toNat))
    { c := decide (128 ≤ (s.regA a).toNat), a := Config.freeFlag s.draws .a, e := Config.freeFlag s.draws .e,
      z := decide (2 * (s.regA a).toNat % 256 = 0) } 1#16)

/-- 40_alu.md R74 (SHR). -/
def Obligations.ShrShiftsBit0IntoCarry : Prop :=
  encodedRR 0xA0 .shr ∧
  ∀ (a b : Reg) (s : State), exec (.shr a b) s = .next (wroteReg s b (BitVec.ofNat 8 ((s.regA a).toNat / 2))
    { c := decide ((s.regA a).toNat % 2 = 1), a := Config.freeFlag s.draws .a, e := Config.freeFlag s.draws .e,
      z := decide ((s.regA a).toNat / 2 = 0) } 1#16)

/-- 40_alu.md R75 (NOT): the one's complement, 0xFF minus the operand. -/
def Obligations.NotWritesComplement : Prop :=
  encodedRR 0xB0 .not ∧
  ∀ (a b : Reg) (s : State), exec (.not a b) s = .next (wroteReg s b (BitVec.ofNat 8 (255 - (s.regA a).toNat))
    { c := Config.freeFlag s.draws .c, a := Config.freeFlag s.draws .a, e := Config.freeFlag s.draws .e,
      z := decide ((s.regA a).toNat = 255) } 1#16)

/-- 40_alu.md R76, R77, R78 (AND, OR, XOR). -/
def Obligations.AndOrXorWriteBitwiseResult : Prop :=
  encodedRR 0xC0 .and ∧ encodedRR 0xD0 .or ∧ encodedRR 0xE0 .xor ∧
  ∀ (a b : Reg) (s : State),
    let x := (s.regA a).toNat
    let y := (s.regB b).toNat
    exec (.and a b) s = .next (wroteReg s b (BitVec.ofNat 8 (x &&& y)) (zeroFlagOnly s (x &&& y)) 1#16) ∧
    exec (.or a b) s = .next (wroteReg s b (BitVec.ofNat 8 (x ||| y)) (zeroFlagOnly s (x ||| y)) 1#16) ∧
    exec (.xor a b) s = .next (wroteReg s b (BitVec.ofNat 8 (x ^^^ y)) (zeroFlagOnly s (x ^^^ y)) 1#16)

/-- 40_alu.md R79 (CMP): A and E from the unsigned comparison, C and Z any, no register written. -/
def Obligations.CmpWritesTwoFlags : Prop :=
  encodedRR 0xF0 .cmp ∧
  ∀ (a b : Reg) (s : State), exec (.cmp a b) s = .next { s with
    flags := { c := Config.freeFlag s.draws .c, a := decide ((s.regB b).toNat < (s.regA a).toNat),
               e := decide ((s.regA a).toNat = (s.regB b).toNat), z := Config.freeFlag s.draws .z },
    pc := s.pc + 1#16, draws := s.draws + 1 }

/-- 40_alu.md R79 with 42_conditional_jumps.md R92, R93, R98: after "CMP Rx, Ry" JA, JE and JAE jump exactly when
Rx > Ry, Rx = Ry and Rx >= Ry, unsigned, whatever the free flags are. -/
def Obligations.CmpThenJumpComparesUnsigned : Prop :=
  ∀ (a b : Reg) (addr : Addr) (s t : State), exec (.cmp a b) s = .next t →
    let x := (s.regA a).toNat
    let y := (s.regB b).toNat
    exec (.ja addr) t = .next { t with pc := if y < x then addr else t.pc + 3#16, draws := t.draws + 1 } ∧
    exec (.je addr) t = .next { t with pc := if x = y then addr else t.pc + 3#16, draws := t.draws + 1 } ∧
    exec (.jae addr) t = .next { t with pc := if y ≤ x then addr else t.pc + 3#16, draws := t.draws + 1 }

/-! ## Loads, stores, immediates, jumps, CLF -/

/-- 41_general.md R80 (LD): the byte at the zero-extended address in RegA, a free value where none was written. -/
def Obligations.LdReadsAddressedByte : Prop :=
  encodedRR 0x00 .ld ∧
  ∀ (a b : Reg) (s : State), exec (.ld a b) s = .next (wroteReg s b
    ((s.mem.byteAt (s.regA a).toNat).getD (Config.freeMemory s.draws .load)) s.flags 1#16)

/-- 41_general.md R81 (ST): the byte at the zero-extended address in RegA becomes RegB, and nothing else changes but
the pc. -/
def Obligations.StWritesAddressedByte : Prop :=
  encodedRR 0x10 .st ∧
  ∀ (a b : Reg) (s : State), ∃ m : Memory,
    exec (.st a b) s = .next { s with mem := m, pc := s.pc + 1#16, draws := s.draws + 1 } ∧
    ∀ x, m.byteAt x = if x = (s.regA a).toNat then some (s.regB b) else s.mem.byteAt x

/-- 41_general.md R82 (DTA), for every value of the ignored bits 3:2: the datum is the byte after the opcode byte, modulo
2^16. -/
def Obligations.DtaLoadsImmediate : Prop :=
  (∀ (x : Nat) (b : Reg) (data : Byte) (rest : List Byte), x < 4 →
    decode (BitVec.ofNat 8 (0x20 + 4 * x + b.bits.toNat) :: data :: rest) = .ok (.dta b data, rest)) ∧
  (∀ (b : Reg) (data : Byte) (s : State), exec (.dta b data) s = .next (wroteReg s b data s.flags 2#16)) ∧
  ∀ (x : Nat) (b : Reg) (data : Byte) (s : State), x < 4 → s.fault = none →
    s.holdsCode [BitVec.ofNat 8 (0x20 + 4 * x + b.bits.toNat), data] →
    step s = .next (wroteReg s b data s.flags 2#16)

/-- 41_general.md R83 (JMPR), for every value of the ignored bits 3:2. -/
def Obligations.JmprJumpsToRegister : Prop :=
  (∀ (x : Nat) (b : Reg) (rest : List Byte), x < 4 →
    decode (BitVec.ofNat 8 (0x30 + 4 * x + b.bits.toNat) :: rest) = .ok (.jmpr b, rest)) ∧
  ∀ (b : Reg) (s : State), exec (.jmpr b) s =
    .next { s with pc := BitVec.ofNat 16 (s.regB b).toNat, draws := s.draws + 1 }

/-- 41_general.md R84 (JMP) and 20_memory.md R34: the target is the two bytes after the opcode byte, high byte first,
for every value of the ignored bits. -/
def Obligations.JmpJumpsToBigEndianImmediate : Prop :=
  (∀ (x : Nat), x < 16 → encodedJ (BitVec.ofNat 8 (0x40 + x)) .jmp) ∧
  (∀ (addr : Addr) (s : State), exec (.jmp addr) s = .next { s with pc := addr, draws := s.draws + 1 }) ∧
  ∀ (x : Nat) (hi lo : Byte) (s : State), x < 16 → s.fault = none →
    s.holdsCode [BitVec.ofNat 8 (0x40 + x), hi, lo] →
    step s = .next { s with pc := BitVec.ofNat 16 (256 * hi.toNat + lo.toNat), draws := s.draws + 1 }

/-- 41_general.md R85 (CLF), for every value of the ignored bits 3:0. -/
def Obligations.ClfClearsAllFlags : Prop :=
  (∀ (x : Nat) (rest : List Byte), x < 16 → decode (BitVec.ofNat 8 (0x60 + x) :: rest) = .ok (.clf, rest)) ∧
  ∀ s : State, exec .clf s =
    .next { s with flags := ⟨false, false, false, false⟩, pc := s.pc + 1#16, draws := s.draws + 1 }

/-- 42_conditional_jumps.md R91 to R94 (JC, JA, JE, JZ). -/
def Obligations.SingleFlagJumps : Prop :=
  jumpRule 0x58#8 .jc (fun f => f.c) ∧ jumpRule 0x54#8 .ja (fun f => f.a) ∧
  jumpRule 0x52#8 .je (fun f => f.e) ∧ jumpRule 0x51#8 .jz (fun f => f.z)

/-- 42_conditional_jumps.md R95 to R100 (JCA, JCE, JCZ, JAE, JAZ, JEZ). -/
def Obligations.TwoFlagJumps : Prop :=
  jumpRule 0x5C#8 .jca (fun f => f.c || f.a) ∧ jumpRule 0x5A#8 .jce (fun f => f.c || f.e) ∧
  jumpRule 0x59#8 .jcz (fun f => f.c || f.z) ∧ jumpRule 0x56#8 .jae (fun f => f.a || f.e) ∧
  jumpRule 0x55#8 .jaz (fun f => f.a || f.z) ∧ jumpRule 0x53#8 .jez (fun f => f.e || f.z)

/-- 42_conditional_jumps.md R101 to R105 (JCAE, JCAZ, JCEZ, JAEZ, JCAEZ). -/
def Obligations.ThreeAndFourFlagJumps : Prop :=
  jumpRule 0x5E#8 .jcae (fun f => f.c || f.a || f.e) ∧ jumpRule 0x5D#8 .jcaz (fun f => f.c || f.a || f.z) ∧
  jumpRule 0x5B#8 .jcez (fun f => f.c || f.e || f.z) ∧ jumpRule 0x57#8 .jaez (fun f => f.a || f.e || f.z) ∧
  jumpRule 0x5F#8 .jcaez (fun f => f.c || f.a || f.e || f.z)

/-- 42_conditional_jumps.md R90: a step at any byte 0101cccc but 0x50 goes to the big-endian address after it when some
flag selected by cccc is 1 (bit 3 C, bit 2 A, bit 1 E, bit 0 Z), and past the three bytes when none is; it changes
nothing but the pc. -/
def Obligations.JumpMaskSelectsFlags : Prop :=
  ∀ (cccc : Nat) (hi lo : Byte) (s : State), 0 < cccc → cccc < 16 → s.fault = none →
    s.holdsCode [BitVec.ofNat 8 (0x50 + cccc), hi, lo] →
    let taken := (cccc / 8 = 1 ∧ s.flags.c = true) ∨ (cccc / 4 % 2 = 1 ∧ s.flags.a = true) ∨
      (cccc / 2 % 2 = 1 ∧ s.flags.e = true) ∨ (cccc % 2 = 1 ∧ s.flags.z = true)
    (taken → step s =
      .next { s with pc := BitVec.ofNat 16 (256 * hi.toNat + lo.toNat), draws := s.draws + 1 }) ∧
    (¬ taken → step s = .next { s with pc := s.pc + 3#16, draws := s.draws + 1 })

/-- 41_general.md R85: a conditional jump right after CLF falls through, changing nothing but the pc. -/
def Obligations.ClfThenConditionalJumpFallsThrough : Prop :=
  ∀ (i : Instr) (s t : State), isCondJump i = true → exec .clf s = .next t →
    exec i t = .next { t with pc := t.pc + 3#16, draws := t.draws + 1 }

/-! ## Input and output -/

/-- 43_io.md R111 (IND): the value is the oracle's answer, and the trace records it. -/
def Obligations.IndReceivesData : Prop :=
  encodedR 0x70 .ind ∧
  ∀ (b : Reg) (s : State), ∃ v : Byte, v = Config.ioIn s.draws s.trace .data ∧
    exec (.ind b) s = .next { wroteReg s b v s.flags 1#16 with trace := s.trace ++ [.input .data v] }

/-- 43_io.md R112 (INA): the value is the oracle's answer, and the trace records it. -/
def Obligations.InaReceivesAddress : Prop :=
  encodedR 0x74 .ina ∧
  ∀ (b : Reg) (s : State), ∃ v : Byte, v = Config.ioIn s.draws s.trace .addr ∧
    exec (.ina b) s = .next { wroteReg s b v s.flags 1#16 with trace := s.trace ++ [.input .addr v] }

/-- 43_io.md R113 (OUTD): the trace records RegB as data; nothing else changes but the pc. -/
def Obligations.OutdSendsData : Prop :=
  encodedR 0x78 .outd ∧
  ∀ (b : Reg) (s : State), exec (.outd b) s = .next { s with
    trace := s.trace ++ [.output .data (s.regB b)], pc := s.pc + 1#16, draws := s.draws + 1 }

/-- 43_io.md R114 (OUTA): the trace records RegB as an address; nothing else changes but the pc. -/
def Obligations.OutaSendsAddress : Prop :=
  encodedR 0x7C .outa ∧
  ∀ (b : Reg) (s : State), exec (.outa b) s = .next { s with
    trace := s.trace ++ [.output .addr (s.regB b)], pc := s.pc + 1#16, draws := s.draws + 1 }

/-- 43_io.md R110, 10_state.md R24: no run changes or drops an event of the trace; it only appends. -/
def Obligations.IoTraceIsOnlyExtended : Prop :=
  ∀ (k : Nat) (s t : State), run k s = .next t → ∃ events, t.trace = s.trace ++ events

/-! ## Registers, flags, program counter -/

/-- 10_state.md R12, an upper bound on both columns of its table: an instruction writes no register but its
destination, and no register outside the table's "reads" has any influence on what it does. That the listed ones do
have influence, except in XOR Rn, Rn and CMP Rn, Rn, is `ListedReadsHaveInfluenceExceptXorCmpOfOneRegister`. Where a
free value is drawn, that the two executions of the last clause agree is the model's and not the spec's: R18 lets the
hardware compute an `any` flag from an operand that is not listed, and R13, R32 and 43_io.md R110 draw afresh at each
read or request; in the model a free value takes no operand and the two executions share one draw counter (logs 2 to
6). -/
def Obligations.RegisterReadsAndWrites : Prop :=
  ∀ (i : Instr) (s t : State), exec i s = .next t →
    (∀ r, destReg i ≠ some r → t.regs.get r = s.regs.get r ∧ t.written.get r = s.written.get r) ∧
    (∀ r, destReg i = some r → t.written.get r = true) ∧
    ∀ (regs : PerReg Byte) (written : PerReg Bool),
      (∀ r, r ∈ readRegs i → regs.get r = s.regs.get r ∧ written.get r = s.written.get r) →
      ∃ t', exec i { s with regs := regs, written := written } = .next t' ∧
        t' = { t with regs := t'.regs, written := t'.written } ∧
        ∀ r, destReg i = some r → t'.regs.get r = t.regs.get r

/-- 10_state.md R12, the converse of `RegisterReadsAndWrites`: for every register in the table's "reads" of an
instruction, except XOR Rn, Rn and CMP Rn, Rn, there is a state in which another value of it changes the value written to
the destination, or the flags, memory, the pc or the trace. XOR Rn, Rn and CMP Rn, Rn read Rn too, but their outcome is
the same for every value of a written Rn (40_alu.md R78: "sets Rn to 0x00 and Z = 1 whatever Rn held"; R79: "always gives
E = 1, A = 0"). That their free flags draw alike is the model's (log 3). -/
def Obligations.ListedReadsHaveInfluenceExceptXorCmpOfOneRegister : Prop :=
  (∀ (i : Instr) (r : Reg), r ∈ readRegs i → (∀ q, i ≠ .xor q q ∧ i ≠ .cmp q q) →
    ∃ (s : State) (v : Byte) (t t' : State), s.written.get r = true ∧ exec i s = .next t ∧
      exec i { s with regs := s.regs.set r v } = .next t' ∧
      ((∃ q, destReg i = some q ∧ t'.regs.get q ≠ t.regs.get q) ∨ t'.flags ≠ t.flags ∨ t'.mem ≠ t.mem ∨
        t'.pc ≠ t.pc ∨ t'.trace ≠ t.trace)) ∧
  (∀ (q : Reg) (v : Byte) (s : State), s.written.get q = true →
    (∃ t, exec (.xor q q) s = .next t ∧ exec (.xor q q) { s with regs := s.regs.set q v } = .next t) ∧
    (∃ t, exec (.cmp q q) s = .next t ∧
      exec (.cmp q q) { s with regs := s.regs.set q v } = .next { t with regs := s.regs.set q v }))

/-- 10_state.md R13: a read of a register that no instruction has written since reset is a draw of that instruction
and that operand position; a written register reads as its value, and stays written through every run. -/
def Obligations.UnwrittenRegisterReadsAreDraws : Prop :=
  (∀ (s : State) (pos : OperandPos) (r : Reg), s.written.get r = false →
    s.readReg pos r = Config.freeRegister s.draws pos) ∧
  (∀ (s : State) (pos : OperandPos) (r : Reg), s.written.get r = true → s.readReg pos r = s.regs.get r) ∧
  (∀ (k : Nat) (s t : State), run k s = .next t → ∀ r, s.written.get r = true → t.written.get r = true)

/-- 10_state.md R13 ("it must not assume zero"): what an unwritten register holds, the model's own choice at reset
(log 1), has no influence on any run: two states that differ in nothing else run alike, to the same fault or to states
that again differ in nothing else. That both runs draw alike is the model's and
not the spec's: a free value takes no register's content and the two share one draw counter (logs 2 to 6). -/
def Obligations.UnwrittenContentsAreNeverSeen : Prop :=
  ∀ (k : Nat) (s s' : State), SameUpToUnwritten s s' →
    (∀ t, run k s = .next t → ∃ t', run k s' = .next t' ∧ SameUpToUnwritten t t') ∧
    (∀ f, run k s = .fault f → run k s' = .fault f)

/-- 10_state.md R19, R14: neither the flags nor the pc has any influence on a register, on memory, on the I/O trace or
on the flags an instruction writes; R18: an instruction that writes no flag leaves them as given; and the flags have no
influence on where an instruction goes, but for the conditional jumps. For the flags that R18 marks `any`, that the old
flags have no influence is the model's and not the spec's, since R18 lets the hardware keep such a flag: the free value
takes no old flag (log 3), and the two executions, with one draw counter, draw alike (log 4), here and at every read of
an unwritten register or byte and every request to the peripheral (logs 2, 5 and 6). -/
def Obligations.FlagsAndPcNeverReachRegisters : Prop :=
  ∀ (i : Instr) (s t : State) (f : Flags) (p : Addr), exec i s = .next t →
    ∃ t', exec i { s with flags := f, pc := p } = .next t' ∧
      t' = { t with flags := t'.flags, pc := t'.pc } ∧
      t'.flags = (if writesFlags i then t.flags else f) ∧
      (isCondJump i = false → p = s.pc → t'.pc = t.pc)

/-- 60_exceptions.md R126: an instruction falls through, or it is JMPR, JMP or a conditional jump and changes nothing
but the pc. -/
def Obligations.OnlyJumpsDivertTheProgram : Prop :=
  ∀ (i : Instr) (s t : State), exec i s = .next t →
    t.pc = s.pc + BitVec.ofNat 16 i.length ∨
      (isJump i = true ∧ t = { s with pc := t.pc, draws := s.draws + 1 })

/-- 10_state.md R16: the advance of the pc and the addresses of an instruction's bytes are modulo 2^16. -/
def Obligations.PcArithmeticWraps : Prop :=
  (∀ (i : Instr) (s t : State), isJump i = false → exec i s = .next t →
    t.pc.toNat = (s.pc.toNat + i.length) % 65536) ∧
  (∀ (s : State) (k : Nat), (s.codeAddr k).toNat = (s.pc.toNat + k) % 65536) ∧
  (∀ (s : State) (b : Reg) (op data : Byte), s.fault = none → s.pc = 0xFFFF#16 → op.toNat = 0x20 + b.bits.toNat →
    s.mem.byteAt 0xFFFF = some op → s.mem.byteAt 0x0000 = some data →
    step s = .next { wroteReg s b data s.flags 2#16 with pc := 0x0001#16 })

/-- The frame of every instruction (10_state.md R18, 20_memory.md R33, R36, 43_io.md R110): memory changes at the
address an ST stores to and nowhere else; flags only where R18 says so; the trace grows by the instruction's own event,
if it has one; the fault mark stays; and (log 4) the draw counter advances by one. -/
def Obligations.FrameOfEveryInstruction : Prop :=
  ∀ (i : Instr) (s t : State), exec i s = .next t →
    (∀ addr, storeAddr i s = some addr → ∀ x, x ≠ addr.toNat → t.mem.byteAt x = s.mem.byteAt x) ∧
    (storeAddr i s = none → ∀ x, t.mem.byteAt x = s.mem.byteAt x) ∧
    (writesFlags i = false → t.flags = s.flags) ∧
    t.trace = s.trace ++ (ioEvent i s).toList ∧
    t.fault = s.fault ∧ t.draws = s.draws + 1

/-! ## Memory -/

/-- 20_memory.md R42: the byte an ST stores is the byte that every later fetch from its address reads, the very next one
among them, until another ST stores there. R33, R32: every other byte is fetched next as before, a free value where
memory lists none (log 5). -/
def Obligations.StoreIsSeenByLaterFetches : Prop :=
  (∀ (a b : Reg) (k n : Nat) (s t u : State), exec (.st a b) s = .next t → run n t = .next u →
    (∀ j v, j < n → run j t = .next v → storeAddr v.fetchInstr v ≠ some (s.addrA a)) →
    (u.pc.toNat + k) % 65536 = (s.regA a).toNat → u.fetchByte k = s.regB b) ∧
  (∀ (a b : Reg) (k : Nat) (s t : State), exec (.st a b) s = .next t →
    (s.pc.toNat + 1 + k) % 65536 ≠ (s.regA a).toNat →
    t.fetchByte k = (s.mem.byteAt ((s.pc.toNat + 1 + k) % 65536)).getD (Config.freeMemory t.draws (.fetch k)))

/-- 20_memory.md R39: a load returns the value of the latest store to its address in program order, or what memory held
at the start if there was none: LD from the address of an ST, and LD from any address, after a run of any length in
which no instruction stores there. -/
def Obligations.LoadReturnsLatestStore : Prop :=
  (∀ (a b c d : Reg) (k : Nat) (s t u : State), exec (.st a b) s = .next t → run k t = .next u →
    (∀ j v, j < k → run j t = .next v → storeAddr v.fetchInstr v ≠ some (s.addrA a)) → u.regA c = s.regA a →
    exec (.ld c d) u = .next (wroteReg u d (s.regB b) u.flags 1#16)) ∧
  (∀ (c d : Reg) (k : Nat) (s u : State), run k s = .next u →
    (∀ j v, j < k → run j s = .next v → storeAddr v.fetchInstr v ≠ some (u.addrA c)) →
    exec (.ld c d) u = .next (wroteReg u d
      ((s.mem.byteAt (u.regA c).toNat).getD (Config.freeMemory u.draws .load)) u.flags 1#16))

/-- 10_state.md R15, 20_memory.md R37: no run changes a byte outside 0x0000 to 0x00FF. -/
def Obligations.StoresStayInPageZero : Prop :=
  ∀ (k : Nat) (s t : State), run k s = .next t → ∀ x, 256 ≤ x → t.mem.byteAt x = s.mem.byteAt x

/-- The model's canonical form (log 5) makes equal memories equal data: two memories in that form that read alike at
every address of the 65536 (20_memory.md R30) are the same list. -/
def Obligations.CanonicalMemoriesAreEqual : Prop :=
  ∀ m m' : Memory, m.wf = true → m'.wf = true → (∀ x, x < 65536 → m.byteAt x = m'.byteAt x) → m = m'

/-- 20_memory.md R30, 60_exceptions.md R122: from every state that meets the invariant (memory lists addresses of the
65536, each once and rising; no fault mark), a step gives a state that meets it. -/
def Obligations.StepKeepsInvariant : Prop :=
  ∀ s t : State, s.Inv → step s = .next t → t.Inv

/-! ## Reset, loading, end of a run -/

/-- The reset state, with any program image loaded, meets the invariant. -/
def Obligations.ResetMeetsInvariant : Prop :=
  ∀ image : List (Addr × Byte), (State.reset.loadImage image).Inv

/-- 10_state.md R25: pc 0x0000, flags 0, every register read a draw (log 2), memory the loaded image and a draw (log 5)
at every byte the image does not cover. 70_reset_and_hazards.md R141: loading changes memory alone. That a later pair
for the same address wins is the model's own choice (log 10): R141's image is a set of pairs. -/
def Obligations.ResetLeavesRegistersUnspecified : Prop :=
  State.reset.pc = 0x0000#16 ∧ State.reset.flags = ⟨false, false, false, false⟩ ∧
  (∀ (pos : OperandPos) (r : Reg), State.reset.readReg pos r = Config.freeRegister State.reset.draws pos) ∧
  (∀ (image : List (Addr × Byte)) (addr : Addr) (access : MemAccess), (∀ v, (addr, v) ∉ image) →
    (State.reset.loadImage image).memRead access addr = Config.freeMemory State.reset.draws access) ∧
  (∀ (before later : List (Addr × Byte)) (addr : Addr) (v : Byte) (access : MemAccess), (∀ w, (addr, w) ∉ later) →
    (State.reset.loadImage (before ++ (addr, v) :: later)).memRead access addr = v) ∧
  (∀ image : List (Addr × Byte),
    State.reset.loadImage image = { State.reset with mem := (State.reset.loadImage image).mem })

/-- 70_reset_and_hazards.md R141 (log 10): an instruction loaded where the fetch finds it is the one the next step
runs, and loading it changes nothing else that an instruction can see. -/
def Obligations.LoadedWordRunsNext : Prop :=
  ∀ (s : State) (nbits w : Nat) (i : Instr), decodeTableWord nbits w = some i →
    step (s.withFetchWord nbits w) = exec i (s.withFetchWord nbits w) ∧
    s.withFetchWord nbits w = { s with mem := (s.withFetchWord nbits w).mem, fault := none } ∧
    ∀ x, (∀ k, k < 3 → x ≠ (s.pc.toNat + k) % 65536) → (s.withFetchWord nbits w).mem.byteAt x = s.mem.byteAt x

/-- 70_reset_and_hazards.md R144: from the end-of-run marker every number of steps leaves every piece of the spec's
state unchanged; the draw counter, the model's own (log 4), counts on. -/
def Obligations.EndMarkerNeverLeaves : Prop :=
  ∀ (k : Nat) (s : State), s.fault = none → s.atEndMarker → run k s = .next { s with draws := s.draws + k }
end

