-- ==== Sys2Proof/Laws/Decode.lean ====
section
/-! SUPPORT. What the decoder does with a list of bytes, said once, and the fields of an encoding. -/

namespace Sys2Proof

@[simp] theorem ofBits_bits (r : Reg) : Reg.ofBits r.bits = r := by
  cases r <;> rfl

@[simp] theorem bits_ofBits (v : BitVec 2) : (Reg.ofBits v).bits = v := by
  revert v
  decide

/-- A 16-bit immediate is its two bytes, high byte first (20_memory.md R34). -/
@[simp] theorem addr16_extract (a : Addr) : addr16 (a.extractLsb' 8 8) (a.extractLsb' 0 8) = a := by
  show (a.extractLsb' 8 8 ++ a.extractLsb' 0 8 : BitVec 16) = a
  apply BitVec.eq_of_toNat_eq
  rw [BitVec.toNat_append, ← Nat.shiftLeft_add_eq_or_of_lt (by omega)]
  simp only [BitVec.extractLsb'_toNat, Nat.shiftRight_eq_div_pow, Nat.shiftLeft_eq]
  omega

theorem addr16_toNat (hi lo : Byte) : (addr16 hi lo).toNat = 256 * hi.toNat + lo.toNat := by
  unfold addr16
  rw [show (hi ++ lo : BitVec (8 + 8)).toNat = hi.toNat <<< 8 ||| lo.toNat from BitVec.toNat_append hi lo,
    ← Nat.shiftLeft_add_eq_or_of_lt lo.isLt, Nat.shiftLeft_eq]
  omega

/-- Enough bytes: the decoder's reading of the stream, and the bytes after it. -/
theorem decode_of_length_le {op : Byte} {rest : List Byte} (h : instrLength op ≤ rest.length + 1) :
    decode (op :: rest) =
      .ok (decodeStream (fun k => (op :: rest).getD k 0#8), (op :: rest).drop (instrLength op)) := by
  simp only [decode, if_neg (Nat.not_lt.mpr h)]

/-- Too few bytes: refused by name. -/
theorem decode_of_length_lt {op : Byte} {rest : List Byte} (h : rest.length + 1 < instrLength op) :
    decode (op :: rest) = .error (.truncated op) := by
  simp only [decode, if_pos h]

/-- A one-byte instruction. -/
theorem decode_one {op : Byte} {rest : List Byte} (h : instrLength op = 1) :
    decode (op :: rest) = .ok (decodeOp op (rest.getD 0 0#8) (rest.getD 1 0#8), rest) := by
  rw [decode_of_length_le (by omega), h]
  rfl

/-- A two-byte instruction. -/
theorem decode_two {op x : Byte} {rest : List Byte} (h : instrLength op = 2) :
    decode (op :: x :: rest) = .ok (decodeOp op x (rest.getD 0 0#8), rest) := by
  rw [decode_of_length_le (by simp; omega), h]
  rfl

/-- A three-byte instruction. -/
theorem decode_three {op x y : Byte} {rest : List Byte} (h : instrLength op = 3) :
    decode (op :: x :: y :: rest) = .ok (decodeOp op x y, rest) := by
  rw [decode_of_length_le (by simp; omega), h]
  rfl

/-- What was decoded, read off the answer. -/
theorem decode_eq_ok {bytes rest : List Byte} {i : Instr} (h : decode bytes = .ok (i, rest)) :
    ∃ op tail, bytes = op :: tail ∧ instrLength op ≤ tail.length + 1 ∧
      i = decodeStream (fun k => bytes.getD k 0#8) ∧ rest = bytes.drop (instrLength op) := by
  cases bytes with
  | nil => cases h
  | cons op tail =>
    by_cases hl : instrLength op ≤ tail.length + 1
    · rw [decode_of_length_le hl] at h
      injection h with h
      injection h with h1 h2
      exact ⟨op, tail, rfl, hl, h1.symm, h2.symm⟩
    · rw [decode_of_length_lt (Nat.lt_of_not_le hl)] at h
      cases h

/-- A one-byte instruction does not look at what follows its opcode byte (30_encoding.md R51, R62). -/
theorem decodeOp_one {op : Byte} (h : instrLength op = 1) (x y x' y' : Byte) : decodeOp op x y = decodeOp op x' y' := by
  unfold decodeOp
  split
  · rfl
  · unfold instrLength at h
    split <;> simp_all

/-- A two-byte instruction does not look at a third byte. -/
theorem decodeOp_two {op : Byte} (h : instrLength op = 2) (x y y' : Byte) : decodeOp op x y = decodeOp op x y' := by
  unfold decodeOp
  split
  · rfl
  · unfold instrLength at h
    split <;> simp_all

theorem instrLength_cases (op : Byte) : instrLength op = 1 ∨ instrLength op = 2 ∨ instrLength op = 3 := by
  unfold instrLength
  split <;> simp

/-- The decoder looks at no byte that the opcode byte does not call for (30_encoding.md R51, R62). -/
theorem decodeStream_congr {f g : Nat → Byte} (h : ∀ k, k < instrLength (f 0) → f k = g k) :
    decodeStream f = decodeStream g := by
  unfold decodeStream
  obtain h1 | h1 | h1 := instrLength_cases (f 0)
  · rw [← h 0 (by omega)]
    exact decodeOp_one h1 _ _ _ _
  · rw [← h 0 (by omega), ← h 1 (by omega)]
    exact decodeOp_two h1 _ _ _
  · rw [← h 0 (by omega), ← h 1 (by omega), ← h 2 (by omega)]

end Sys2Proof
end

