-- ==== Sys2Proof/Laws/State.lean ====
section
/-! SUPPORT. One lemma for each field of the state after each operation. -/

namespace Sys2Proof.Machine

variable (s : State)

@[simp] theorem writeReg_regs (r : Reg) (v : Byte) : (s.writeReg r v).regs = s.regs.set r v := rfl
@[simp] theorem writeReg_written (r : Reg) (v : Byte) : (s.writeReg r v).written = s.written.set r true := rfl
@[simp] theorem writeReg_pc (r : Reg) (v : Byte) : (s.writeReg r v).pc = s.pc := rfl
@[simp] theorem writeReg_flags (r : Reg) (v : Byte) : (s.writeReg r v).flags = s.flags := rfl
@[simp] theorem writeReg_mem (r : Reg) (v : Byte) : (s.writeReg r v).mem = s.mem := rfl
@[simp] theorem writeReg_trace (r : Reg) (v : Byte) : (s.writeReg r v).trace = s.trace := rfl
@[simp] theorem writeReg_fault (r : Reg) (v : Byte) : (s.writeReg r v).fault = s.fault := rfl
@[simp] theorem writeReg_draws (r : Reg) (v : Byte) : (s.writeReg r v).draws = s.draws := rfl

@[simp] theorem memWrite_regs (addr : Addr) (v : Byte) : (s.memWrite addr v).regs = s.regs := rfl
@[simp] theorem memWrite_written (addr : Addr) (v : Byte) : (s.memWrite addr v).written = s.written := rfl
@[simp] theorem memWrite_pc (addr : Addr) (v : Byte) : (s.memWrite addr v).pc = s.pc := rfl
@[simp] theorem memWrite_flags (addr : Addr) (v : Byte) : (s.memWrite addr v).flags = s.flags := rfl
@[simp] theorem memWrite_mem (addr : Addr) (v : Byte) : (s.memWrite addr v).mem = s.mem.store addr.toNat v := rfl
@[simp] theorem memWrite_trace (addr : Addr) (v : Byte) : (s.memWrite addr v).trace = s.trace := rfl
@[simp] theorem memWrite_fault (addr : Addr) (v : Byte) : (s.memWrite addr v).fault = s.fault := rfl
@[simp] theorem memWrite_draws (addr : Addr) (v : Byte) : (s.memWrite addr v).draws = s.draws := rfl

@[simp] theorem setFlags_regs (f : Flags) : (s.setFlags f).regs = s.regs := rfl
@[simp] theorem setFlags_written (f : Flags) : (s.setFlags f).written = s.written := rfl
@[simp] theorem setFlags_pc (f : Flags) : (s.setFlags f).pc = s.pc := rfl
@[simp] theorem setFlags_flags (f : Flags) : (s.setFlags f).flags = f := rfl
@[simp] theorem setFlags_mem (f : Flags) : (s.setFlags f).mem = s.mem := rfl
@[simp] theorem setFlags_trace (f : Flags) : (s.setFlags f).trace = s.trace := rfl
@[simp] theorem setFlags_fault (f : Flags) : (s.setFlags f).fault = s.fault := rfl
@[simp] theorem setFlags_draws (f : Flags) : (s.setFlags f).draws = s.draws := rfl

@[simp] theorem goTo_regs (target : Addr) : (s.goTo target).regs = s.regs := rfl
@[simp] theorem goTo_written (target : Addr) : (s.goTo target).written = s.written := rfl
@[simp] theorem goTo_pc (target : Addr) : (s.goTo target).pc = target := rfl
@[simp] theorem goTo_flags (target : Addr) : (s.goTo target).flags = s.flags := rfl
@[simp] theorem goTo_mem (target : Addr) : (s.goTo target).mem = s.mem := rfl
@[simp] theorem goTo_trace (target : Addr) : (s.goTo target).trace = s.trace := rfl
@[simp] theorem goTo_fault (target : Addr) : (s.goTo target).fault = s.fault := rfl
@[simp] theorem goTo_draws (target : Addr) : (s.goTo target).draws = s.draws + 1 := rfl

@[simp] theorem advance_regs (n : Nat) : (s.advance n).regs = s.regs := rfl
@[simp] theorem advance_written (n : Nat) : (s.advance n).written = s.written := rfl
@[simp] theorem advance_pc (n : Nat) : (s.advance n).pc = s.pc + BitVec.ofNat 16 n := rfl
@[simp] theorem advance_flags (n : Nat) : (s.advance n).flags = s.flags := rfl
@[simp] theorem advance_mem (n : Nat) : (s.advance n).mem = s.mem := rfl
@[simp] theorem advance_trace (n : Nat) : (s.advance n).trace = s.trace := rfl
@[simp] theorem advance_fault (n : Nat) : (s.advance n).fault = s.fault := rfl
@[simp] theorem advance_draws (n : Nat) : (s.advance n).draws = s.draws + 1 := rfl

@[simp] theorem emit_regs (event : IoEvent) : (s.emit event).regs = s.regs := rfl
@[simp] theorem emit_written (event : IoEvent) : (s.emit event).written = s.written := rfl
@[simp] theorem emit_pc (event : IoEvent) : (s.emit event).pc = s.pc := rfl
@[simp] theorem emit_flags (event : IoEvent) : (s.emit event).flags = s.flags := rfl
@[simp] theorem emit_mem (event : IoEvent) : (s.emit event).mem = s.mem := rfl
@[simp] theorem emit_trace (event : IoEvent) : (s.emit event).trace = s.trace ++ [event] := rfl
@[simp] theorem emit_fault (event : IoEvent) : (s.emit event).fault = s.fault := rfl
@[simp] theorem emit_draws (event : IoEvent) : (s.emit event).draws = s.draws := rfl

end Sys2Proof.Machine
end

