-- ==== Sys2Proof/Laws/Memory.lean ====
section
/-! SUPPORT. The laws of memory: read after write, and that every memory operation keeps the canonical form. -/

namespace Sys2Proof.Machine

/-- What a store does to every address, in any memory. -/
@[simp] theorem byteAt_store (m : Memory) (a x : Nat) (v : Byte) :
    (m.store a v).byteAt x = if x = a then some v else m.byteAt x := by
  induction m with
  | nil => simp [Memory.store, Memory.byteAt]
  | cons cell rest ih =>
    obtain ⟨k, w⟩ := cell
    unfold Memory.store
    split
    · simp [Memory.byteAt]
    · split
      · subst_vars
        by_cases hx : x = k <;> simp [Memory.byteAt, hx]
      · rename_i hne
        by_cases hx : x = k
        · subst hx
          have hxa : ¬ x = a := fun h => hne h.symm
          simp [Memory.byteAt, hxa]
        · simp [Memory.byteAt, hx, ih]

theorem wfFrom_store {low : Nat} {m : Memory} {a : Nat} (v : Byte) (hm : m.wfFrom low = true) (hlow : low ≤ a)
    (ha : a < 65536) : (m.store a v).wfFrom low = true := by
  induction m generalizing low with
  | nil => simp [Memory.store, Memory.wfFrom, hlow, ha]
  | cons cell rest ih =>
    obtain ⟨k, w⟩ := cell
    simp only [Memory.wfFrom, Bool.and_eq_true, decide_eq_true_eq] at hm
    obtain ⟨⟨hk, hk'⟩, hrest⟩ := hm
    unfold Memory.store
    split
    · rename_i hlt
      simp only [Memory.wfFrom, Bool.and_eq_true, decide_eq_true_eq]
      exact ⟨⟨hlow, ha⟩, ⟨by omega, hk'⟩, hrest⟩
    · split
      · subst_vars
        simp [Memory.wfFrom, hk, hk', hrest]
      · simp only [Memory.wfFrom, Bool.and_eq_true, decide_eq_true_eq]
        exact ⟨⟨hk, hk'⟩, ih hrest (by omega)⟩

/-- A store at an address of the address space keeps the canonical form. -/
theorem wf_store {m : Memory} {a : Nat} (v : Byte) (hm : m.wf = true) (ha : a < 65536) : (m.store a v).wf = true :=
  wfFrom_store v hm (Nat.zero_le a) ha

theorem wf_memWrite {s : State} (addr : Addr) (v : Byte) (h : s.mem.wf = true) : (s.memWrite addr v).mem.wf = true :=
  wf_store v h addr.isLt

/-- Loading an image keeps the canonical form. -/
theorem wf_loadImage {s : State} (image : List (Addr × Byte)) (h : s.mem.wf = true) :
    (s.loadImage image).mem.wf = true := by
  induction image generalizing s with
  | nil => exact h
  | cons cell rest ih => exact ih (wf_memWrite _ _ h)

/-- Loading an image changes memory alone. -/
theorem loadImage_eq (s : State) (image : List (Addr × Byte)) :
    s.loadImage image = { s with mem := (s.loadImage image).mem } := by
  induction image generalizing s with
  | nil => rfl
  | cons cell rest ih =>
    simp only [State.loadImage]
    rw [ih]
    rfl

/-- Memory right after reset is in canonical form. -/
theorem wf_reset : State.reset.mem.wf = true := rfl

/-- A read of a byte that the image or an ST has written. -/
@[simp] theorem memRead_of_byteAt {s : State} {addr : Addr} {v : Byte} (access : MemAccess)
    (h : s.mem.byteAt addr.toNat = some v) : s.memRead access addr = v := by
  simp [State.memRead, h]

/-- Every read, by what memory lists at the address. -/
theorem memRead_eq (s : State) (access : MemAccess) (addr : Addr) :
    s.memRead access addr = (s.mem.byteAt addr.toNat).getD (Config.freeMemory s.draws access) := by
  unfold State.memRead
  cases s.mem.byteAt addr.toNat <;> rfl

end Sys2Proof.Machine
end

