-- ==== Sys2Proof/Laws/Registers.lean ====
section
/-! SUPPORT. Reading and writing registers. -/

namespace Sys2Proof.Machine

@[simp] theorem perReg_get_set {α : Type} (p : PerReg α) (r q : Reg) (v : α) :
    (p.set r v).get q = if q = r then v else p.get q := by
  cases r <;> cases q <;> rfl

theorem perReg_ext {α : Type} {p q : PerReg α} (h : ∀ r, p.get r = q.get r) : p = q := by
  have h0 := h .r0
  have h1 := h .r1
  have h2 := h .r2
  have h3 := h .r3
  cases p
  cases q
  simp_all [PerReg.get]

@[simp] theorem readReg_of_written {s : State} {r : Reg} (pos : OperandPos) (h : s.written.get r = true) :
    s.readReg pos r = s.regs.get r := by
  simp [State.readReg, h]

@[simp] theorem readReg_of_unwritten {s : State} {r : Reg} (pos : OperandPos) (h : s.written.get r = false) :
    s.readReg pos r = Config.freeRegister s.draws pos := by
  simp [State.readReg, h]

/-- A register just written reads as the value written (10_state.md R12). -/
theorem readReg_writeReg (s : State) (pos : OperandPos) (r : Reg) (v : Byte) : (s.writeReg r v).readReg pos r = v := by
  simp [State.readReg]

/-- A read depends on the register's value and mark and on the number of the instruction alone. -/
theorem readReg_congr {s t : State} {r : Reg} (pos : OperandPos) (hw : t.written.get r = s.written.get r)
    (hr : s.written.get r = true → t.regs.get r = s.regs.get r) (hd : t.draws = s.draws) :
    t.readReg pos r = s.readReg pos r := by
  unfold State.readReg
  rw [hw, hd]
  split
  · exact hr ‹_›
  · rfl

/-- A register supplies an address of page zero, its own value (10_state.md R15). -/
@[simp] theorem zext16_toNat (v : Byte) : (zext16 v).toNat = v.toNat :=
  (BitVec.toNat_append 0x00#8 v).trans (by simp)

end Sys2Proof.Machine
end

