-- ==== Sys2Proof/Laws/Step.lean ====
section
/-! SUPPORT. What each shared ending of a meaning can do, and what a step does, said once. -/

namespace Sys2Proof.Machine

theorem finishAlu_next {s t : State} {b : Reg} {r : Byte} {f : Flags} (h : s.finishAlu b r f = .next t) :
    t = ((s.writeReg b r).setFlags f).advance 1 := by
  injection h with h
  exact h.symm

theorem finishLogic_next {s t : State} {b : Reg} {r : Byte} (h : s.finishLogic b r = .next t) :
    t = ((s.writeReg b r).setFlags (logicFlags s.draws r)).advance 1 :=
  finishAlu_next h

theorem inputTo_next {s t : State} {kind : IoKind} {b : Reg} (h : s.inputTo kind b = .next t) :
    t = ((s.writeReg b (s.ioAnswer kind)).emit (.input kind (s.ioAnswer kind))).advance 1 := by
  injection h with h
  exact h.symm

theorem outputFrom_next {s t : State} {kind : IoKind} {b : Reg} (h : s.outputFrom kind b = .next t) :
    t = (s.emit (.output kind (s.readReg .regB b))).advance 1 := by
  injection h with h
  exact h.symm

/-- A conditional jump always completes, at its target or past its three bytes. -/
theorem jumpIf_eq (s : State) (cccc : BitVec 4) (addr : Addr) :
    s.jumpIf cccc addr = .next (s.goTo (if condition cccc s.flags then addr else s.pc + 3#16)) := by
  unfold State.jumpIf State.advance
  split <;> rfl

theorem jumpIf_next {s t : State} {cccc : BitVec 4} {addr : Addr} (h : s.jumpIf cccc addr = .next t) :
    t = s.goTo (if condition cccc s.flags then addr else s.pc + 3#16) := by
  rw [jumpIf_eq] at h
  injection h with h
  exact h.symm

@[simp] theorem step_of_fault {s : State} {f : Fault} (h : s.fault = some f) : step s = .fault f := by
  simp [step, h]

theorem step_of_running {s : State} (h : s.fault = none) : step s = exec s.fetchInstr s := by
  simp [step, h]

/-- A step that answers a next state ran the fetched instruction in a state without a fault mark. -/
theorem step_next {s t : State} (h : step s = .next t) : s.fault = none ∧ exec s.fetchInstr s = .next t := by
  cases hf : s.fault with
  | none => exact ⟨rfl, by rw [← step_of_running hf]; exact h⟩
  | some f => rw [step_of_fault hf] at h; cases h

/-- The address of byte `k` of an instruction, modulo 2^16 (10_state.md R16). -/
theorem codeAddr_toNat (s : State) (k : Nat) : (s.codeAddr k).toNat = (s.pc.toNat + k) % 65536 := by
  simp [State.codeAddr, BitVec.toNat_add, BitVec.toNat_ofNat]

theorem fetchByte_eq (s : State) (k : Nat) :
    s.fetchByte k = (s.mem.byteAt ((s.pc.toNat + k) % 65536)).getD (Config.freeMemory s.draws (.fetch k)) := by
  rw [State.fetchByte, memRead_eq, codeAddr_toNat]

end Sys2Proof.Machine
end

