-- ==== Sys2Proof/Laws/Exec.lean ====
section
/-! SUPPORT. Each instruction in the shared operations, one lemma per constructor: proofs rewrite with these and the
lemmas about the operations, and do not unfold `exec`. -/

namespace Sys2Proof.Machine

variable (s : State)

@[simp] theorem exec_add (a b : Reg) :
    exec (.add a b) s =
      s.finishAlu b (addResult (s.regA a) (s.regB b)) (addFlags s.draws (s.regA a) (s.regB b)) := rfl

@[simp] theorem exec_shl (a b : Reg) :
    exec (.shl a b) s =
      s.finishAlu b (shlResult (s.regA a)) (shlFlags s.draws (s.regA a)) := rfl

@[simp] theorem exec_shr (a b : Reg) :
    exec (.shr a b) s =
      s.finishAlu b (shrResult (s.regA a)) (shrFlags s.draws (s.regA a)) := rfl

@[simp] theorem exec_not (a b : Reg) : exec (.not a b) s = s.finishLogic b (~~~(s.regA a)) := rfl

@[simp] theorem exec_and (a b : Reg) : exec (.and a b) s = s.finishLogic b (s.regA a &&& s.regB b) := rfl

@[simp] theorem exec_or (a b : Reg) : exec (.or a b) s = s.finishLogic b (s.regA a ||| s.regB b) := rfl

@[simp] theorem exec_xor (a b : Reg) : exec (.xor a b) s = s.finishLogic b (s.regA a ^^^ s.regB b) := rfl

@[simp] theorem exec_cmp (a b : Reg) :
    exec (.cmp a b) s =
      .next ((s.setFlags (cmpFlags s.draws (s.regA a) (s.regB b))).advance 1) := rfl

@[simp] theorem exec_ld (a b : Reg) :
    exec (.ld a b) s =
      .next ((s.writeReg b (s.memRead .load (s.addrA a))).advance 1) := rfl

@[simp] theorem exec_st (a b : Reg) : exec (.st a b) s = .next ((s.memWrite (s.addrA a) (s.regB b)).advance 1) := rfl

@[simp] theorem exec_dta (b : Reg) (data : Byte) : exec (.dta b data) s = .next ((s.writeReg b data).advance 2) := rfl

@[simp] theorem exec_jmpr (b : Reg) : exec (.jmpr b) s = .next (s.goTo (s.addrB b)) := rfl

@[simp] theorem exec_jmp (addr : Addr) : exec (.jmp addr) s = .next (s.goTo addr) := rfl

@[simp] theorem exec_jc (addr : Addr) : exec (.jc addr) s = s.jumpIf 0b1000#4 addr := rfl

@[simp] theorem exec_ja (addr : Addr) : exec (.ja addr) s = s.jumpIf 0b0100#4 addr := rfl

@[simp] theorem exec_je (addr : Addr) : exec (.je addr) s = s.jumpIf 0b0010#4 addr := rfl

@[simp] theorem exec_jz (addr : Addr) : exec (.jz addr) s = s.jumpIf 0b0001#4 addr := rfl

@[simp] theorem exec_jca (addr : Addr) : exec (.jca addr) s = s.jumpIf 0b1100#4 addr := rfl

@[simp] theorem exec_jce (addr : Addr) : exec (.jce addr) s = s.jumpIf 0b1010#4 addr := rfl

@[simp] theorem exec_jcz (addr : Addr) : exec (.jcz addr) s = s.jumpIf 0b1001#4 addr := rfl

@[simp] theorem exec_jae (addr : Addr) : exec (.jae addr) s = s.jumpIf 0b0110#4 addr := rfl

@[simp] theorem exec_jaz (addr : Addr) : exec (.jaz addr) s = s.jumpIf 0b0101#4 addr := rfl

@[simp] theorem exec_jez (addr : Addr) : exec (.jez addr) s = s.jumpIf 0b0011#4 addr := rfl

@[simp] theorem exec_jcae (addr : Addr) : exec (.jcae addr) s = s.jumpIf 0b1110#4 addr := rfl

@[simp] theorem exec_jcaz (addr : Addr) : exec (.jcaz addr) s = s.jumpIf 0b1101#4 addr := rfl

@[simp] theorem exec_jcez (addr : Addr) : exec (.jcez addr) s = s.jumpIf 0b1011#4 addr := rfl

@[simp] theorem exec_jaez (addr : Addr) : exec (.jaez addr) s = s.jumpIf 0b0111#4 addr := rfl

@[simp] theorem exec_jcaez (addr : Addr) : exec (.jcaez addr) s = s.jumpIf 0b1111#4 addr := rfl

@[simp] theorem exec_clf : exec .clf s = .next ((s.setFlags clearFlags).advance 1) := rfl

@[simp] theorem exec_ind (b : Reg) : exec (.ind b) s = s.inputTo .data b := rfl

@[simp] theorem exec_ina (b : Reg) : exec (.ina b) s = s.inputTo .addr b := rfl

@[simp] theorem exec_outd (b : Reg) : exec (.outd b) s = s.outputFrom .data b := rfl

@[simp] theorem exec_outa (b : Reg) : exec (.outa b) s = s.outputFrom .addr b := rfl

@[simp] theorem exec_reserved50 (addr : Addr) : exec (.reserved50 addr) s = s.raiseReserved := rfl

end Sys2Proof.Machine
end

