-- ==== Sys2Proof/Laws/PerInstr.lean ====
section
/-! SUPPORT. Laws stated for every instruction, one lemma per constructor. EncodeLength: the encoder writes as many
bytes as the instruction is long, and the length that the first of them announces (30_encoding.md R51). -/

def Sys2Proof.Laws.EncodeLength.Statement (i : Sys2Proof.Instr) : Prop :=
  (Sys2Proof.encode i).length = i.length ∧
    (Sys2Proof.encode i).head?.map Sys2Proof.instrLength = some i.length

theorem Sys2Proof.Laws.EncodeLength.add (a b : Sys2Proof.Reg) : Sys2Proof.Laws.EncodeLength.Statement (.add a b) := by
  cases a <;> cases b <;> exact ⟨rfl, rfl⟩

theorem Sys2Proof.Laws.EncodeLength.shl (a b : Sys2Proof.Reg) : Sys2Proof.Laws.EncodeLength.Statement (.shl a b) := by
  cases a <;> cases b <;> exact ⟨rfl, rfl⟩

theorem Sys2Proof.Laws.EncodeLength.shr (a b : Sys2Proof.Reg) : Sys2Proof.Laws.EncodeLength.Statement (.shr a b) := by
  cases a <;> cases b <;> exact ⟨rfl, rfl⟩

theorem Sys2Proof.Laws.EncodeLength.not (a b : Sys2Proof.Reg) : Sys2Proof.Laws.EncodeLength.Statement (.not a b) := by
  cases a <;> cases b <;> exact ⟨rfl, rfl⟩

theorem Sys2Proof.Laws.EncodeLength.and (a b : Sys2Proof.Reg) : Sys2Proof.Laws.EncodeLength.Statement (.and a b) := by
  cases a <;> cases b <;> exact ⟨rfl, rfl⟩

theorem Sys2Proof.Laws.EncodeLength.or (a b : Sys2Proof.Reg) : Sys2Proof.Laws.EncodeLength.Statement (.or a b) := by
  cases a <;> cases b <;> exact ⟨rfl, rfl⟩

theorem Sys2Proof.Laws.EncodeLength.xor (a b : Sys2Proof.Reg) : Sys2Proof.Laws.EncodeLength.Statement (.xor a b) := by
  cases a <;> cases b <;> exact ⟨rfl, rfl⟩

theorem Sys2Proof.Laws.EncodeLength.cmp (a b : Sys2Proof.Reg) : Sys2Proof.Laws.EncodeLength.Statement (.cmp a b) := by
  cases a <;> cases b <;> exact ⟨rfl, rfl⟩

theorem Sys2Proof.Laws.EncodeLength.ld (a b : Sys2Proof.Reg) : Sys2Proof.Laws.EncodeLength.Statement (.ld a b) := by
  cases a <;> cases b <;> exact ⟨rfl, rfl⟩

theorem Sys2Proof.Laws.EncodeLength.st (a b : Sys2Proof.Reg) : Sys2Proof.Laws.EncodeLength.Statement (.st a b) := by
  cases a <;> cases b <;> exact ⟨rfl, rfl⟩

theorem Sys2Proof.Laws.EncodeLength.dta (b : Sys2Proof.Reg) (data : Sys2Proof.Byte) : Sys2Proof.Laws.EncodeLength.Statement (.dta b data) := by
  cases b <;> exact ⟨rfl, rfl⟩

theorem Sys2Proof.Laws.EncodeLength.jmpr (b : Sys2Proof.Reg) : Sys2Proof.Laws.EncodeLength.Statement (.jmpr b) := by
  cases b <;> exact ⟨rfl, rfl⟩

theorem Sys2Proof.Laws.EncodeLength.ind (b : Sys2Proof.Reg) : Sys2Proof.Laws.EncodeLength.Statement (.ind b) := by
  cases b <;> exact ⟨rfl, rfl⟩

theorem Sys2Proof.Laws.EncodeLength.ina (b : Sys2Proof.Reg) : Sys2Proof.Laws.EncodeLength.Statement (.ina b) := by
  cases b <;> exact ⟨rfl, rfl⟩

theorem Sys2Proof.Laws.EncodeLength.outd (b : Sys2Proof.Reg) : Sys2Proof.Laws.EncodeLength.Statement (.outd b) := by
  cases b <;> exact ⟨rfl, rfl⟩

theorem Sys2Proof.Laws.EncodeLength.outa (b : Sys2Proof.Reg) : Sys2Proof.Laws.EncodeLength.Statement (.outa b) := by
  cases b <;> exact ⟨rfl, rfl⟩

theorem Sys2Proof.Laws.EncodeLength.jmp (addr : Sys2Proof.Addr) : Sys2Proof.Laws.EncodeLength.Statement (.jmp addr) := ⟨rfl, rfl⟩

theorem Sys2Proof.Laws.EncodeLength.jc (addr : Sys2Proof.Addr) : Sys2Proof.Laws.EncodeLength.Statement (.jc addr) := ⟨rfl, rfl⟩

theorem Sys2Proof.Laws.EncodeLength.ja (addr : Sys2Proof.Addr) : Sys2Proof.Laws.EncodeLength.Statement (.ja addr) := ⟨rfl, rfl⟩

theorem Sys2Proof.Laws.EncodeLength.je (addr : Sys2Proof.Addr) : Sys2Proof.Laws.EncodeLength.Statement (.je addr) := ⟨rfl, rfl⟩

theorem Sys2Proof.Laws.EncodeLength.jz (addr : Sys2Proof.Addr) : Sys2Proof.Laws.EncodeLength.Statement (.jz addr) := ⟨rfl, rfl⟩

theorem Sys2Proof.Laws.EncodeLength.jca (addr : Sys2Proof.Addr) : Sys2Proof.Laws.EncodeLength.Statement (.jca addr) := ⟨rfl, rfl⟩

theorem Sys2Proof.Laws.EncodeLength.jce (addr : Sys2Proof.Addr) : Sys2Proof.Laws.EncodeLength.Statement (.jce addr) := ⟨rfl, rfl⟩

theorem Sys2Proof.Laws.EncodeLength.jcz (addr : Sys2Proof.Addr) : Sys2Proof.Laws.EncodeLength.Statement (.jcz addr) := ⟨rfl, rfl⟩

theorem Sys2Proof.Laws.EncodeLength.jae (addr : Sys2Proof.Addr) : Sys2Proof.Laws.EncodeLength.Statement (.jae addr) := ⟨rfl, rfl⟩

theorem Sys2Proof.Laws.EncodeLength.jaz (addr : Sys2Proof.Addr) : Sys2Proof.Laws.EncodeLength.Statement (.jaz addr) := ⟨rfl, rfl⟩

theorem Sys2Proof.Laws.EncodeLength.jez (addr : Sys2Proof.Addr) : Sys2Proof.Laws.EncodeLength.Statement (.jez addr) := ⟨rfl, rfl⟩

theorem Sys2Proof.Laws.EncodeLength.jcae (addr : Sys2Proof.Addr) : Sys2Proof.Laws.EncodeLength.Statement (.jcae addr) := ⟨rfl, rfl⟩

theorem Sys2Proof.Laws.EncodeLength.jcaz (addr : Sys2Proof.Addr) : Sys2Proof.Laws.EncodeLength.Statement (.jcaz addr) := ⟨rfl, rfl⟩

theorem Sys2Proof.Laws.EncodeLength.jcez (addr : Sys2Proof.Addr) : Sys2Proof.Laws.EncodeLength.Statement (.jcez addr) := ⟨rfl, rfl⟩

theorem Sys2Proof.Laws.EncodeLength.jaez (addr : Sys2Proof.Addr) : Sys2Proof.Laws.EncodeLength.Statement (.jaez addr) := ⟨rfl, rfl⟩

theorem Sys2Proof.Laws.EncodeLength.jcaez (addr : Sys2Proof.Addr) : Sys2Proof.Laws.EncodeLength.Statement (.jcaez addr) := ⟨rfl, rfl⟩

theorem Sys2Proof.Laws.EncodeLength.reserved50 (addr : Sys2Proof.Addr) : Sys2Proof.Laws.EncodeLength.Statement (.reserved50 addr) := ⟨rfl, rfl⟩

theorem Sys2Proof.Laws.EncodeLength.clf : Sys2Proof.Laws.EncodeLength.Statement .clf := ⟨rfl, rfl⟩
end

