-- ==== Sys2Proof/Laws/Run.lean ====
section
/-! SUPPORT. Runs, and the induction over them said once. -/

namespace Sys2Proof.Machine

@[simp] theorem run_zero (s : State) : run 0 s = .next s := rfl

theorem run_succ (k : Nat) (s : State) :
    run (k + 1) s =
      match step s with
      | .next u => run k u
      | .fault f => .fault f
      | .refused r => .refused r := rfl

/-- A run of `k + 1` steps that answers a next state is a step and a run of `k`. -/
theorem run_succ_next {k : Nat} {s t : State} (h : run (k + 1) s = .next t) :
    ∃ u, step s = .next u ∧ run k u = .next t := by
  rw [run_succ] at h
  split at h
  · exact ⟨_, ‹_›, h⟩
  · cases h
  · cases h

/-- A relation that is reflexive and that a step in front extends holds between the ends of every run. -/
theorem run_induct {P : State → State → Prop} (hrefl : ∀ s, P s s)
    (hstep : ∀ s u t, step s = .next u → P u t → P s t) {k : Nat} {s t : State} (h : run k s = .next t) : P s t := by
  induction k generalizing s with
  | zero =>
    injection h with h
    subst h
    exact hrefl s
  | succ k ih =>
    obtain ⟨u, hu, hr⟩ := run_succ_next h
    exact hstep s u t hu (ih hr)

/-- An invariant that every step keeps holds at the end of every run from a state that meets it. -/
theorem run_invariant {P : State → Prop} (hstep : ∀ s t, P s → step s = .next t → P t) {k : Nat} {s t : State}
    (hs : P s) (h : run k s = .next t) : P t :=
  run_induct (P := fun s t => P s → P t) (fun _ hs => hs) (fun s u _ hu ih hs => ih (hstep s u hs hu)) h hs

theorem holdsCode_one {s : State} {x : Byte} (hx : s.mem.byteAt (s.pc.toNat % 65536) = some x) : s.holdsCode [x] := by
  intro k v hv
  match k with
  | 0 => simp_all
  | k + 1 => simp at hv

theorem holdsCode_two {s : State} {x y : Byte} (hx : s.mem.byteAt (s.pc.toNat % 65536) = some x)
    (hy : s.mem.byteAt ((s.pc.toNat + 1) % 65536) = some y) : s.holdsCode [x, y] := by
  intro k v hv
  match k with
  | 0 => simp_all
  | 1 => simp_all
  | k + 2 => simp at hv

theorem holdsCode_three {s : State} {x y z : Byte} (hx : s.mem.byteAt (s.pc.toNat % 65536) = some x)
    (hy : s.mem.byteAt ((s.pc.toNat + 1) % 65536) = some y) (hz : s.mem.byteAt ((s.pc.toNat + 2) % 65536) = some z) :
    s.holdsCode [x, y, z] := by
  intro k v hv
  match k with
  | 0 => simp_all
  | 1 => simp_all
  | 2 => simp_all
  | k + 3 => simp at hv

end Sys2Proof.Machine
end

