-- ==== Sys2Proof/Tests/Slice0.lean ====
section
/-! SUPPORT. The model's own tests. Every expected result is taken from spec/: the encoding lines and the derived vectors
of 95_test_vectors.md, and the examples in the rules; each test names its place. The witness theorems at the end show,
for every statement with hypotheses, concrete values that meet them. -/

open Sys2Proof Sys2Proof.Machine

namespace Sys2Proof.Tests

/-- A running machine in which every register has been written. -/
def machine (pc : Addr) (mem : Memory) (r0 r1 r2 r3 : Byte) : State where
  regs := ⟨r0, r1, r2, r3⟩
  written := ⟨true, true, true, true⟩
  pc := pc
  flags := ⟨false, false, false, false⟩
  mem := mem
  trace := []
  fault := none
  draws := 0

/-- Whether the outcome is a next state of which `p` holds. -/
def nextIs (o : Result) (p : State → Bool) : Bool :=
  match o with
  | .next t => p t
  | .fault _ => false
  | .refused _ => false

/-- Where a step goes from address 0x0010 with these flags, the bytes there being `op`, 0x02, 0x40. -/
def jumpFrom0010 (op : Byte) (c a e z : Bool) : Option Addr :=
  match step { machine 0x0010#16 [(0x10, op), (0x11, 0x02#8), (0x12, 0x40#8)] 0 0 0 0 with flags := ⟨c, a, e, z⟩ } with
  | .next t => some t.pc
  | .fault _ => none
  | .refused _ => none

/-- The mnemonic of the instruction decoded from an opcode-table word, and whether it completes as the first one after
reset. -/
def firstAfterReset (nbits w : Nat) : Option (String × Bool) :=
  (decodeTableWord nbits w).map fun i =>
    (i.mnemonic, nextIs (step (State.reset.withFetchWord nbits w)) fun _ => true)

/-! ## Well-formedness (42_conditional_jumps.md R106) -/

theorem test_reserved_is_ill_formed : (Instr.reserved50 0x0000#16).wellFormed = false := by decide

theorem test_reserved_is_ill_formed_with_any_address : (Instr.reserved50 0xFFFF#16).wellFormed = false := by decide

theorem test_clf_is_well_formed : Instr.clf.wellFormed = true := by decide

/-! ## Decoding: words of 95_test_vectors.md section 1 and section 2.5 -/

theorem test_decode_add : decode [0b10001001#8] = .ok (.add .r2 .r1, []) := by decide

theorem test_decode_shl : decode [0b10010011#8] = .ok (.shl .r0 .r3, []) := by decide

theorem test_decode_shr : decode [0b10101011#8] = .ok (.shr .r2 .r3, []) := by decide

theorem test_decode_not : decode [0b10110010#8] = .ok (.not .r0 .r2, []) := by decide

theorem test_decode_and : decode [0b11001100#8] = .ok (.and .r3 .r0, []) := by decide

theorem test_decode_or : decode [0b11010110#8] = .ok (.or .r1 .r2, []) := by decide

theorem test_decode_xor : decode [0b11100011#8] = .ok (.xor .r0 .r3, []) := by decide

theorem test_decode_cmp : decode [0b11110001#8] = .ok (.cmp .r0 .r1, []) := by decide

theorem test_decode_ld : decode [0b00000001#8] = .ok (.ld .r0 .r1, []) := by decide

theorem test_decode_st : decode [0b00011011#8] = .ok (.st .r2 .r3, []) := by decide

theorem test_decode_jmpr : decode [0b00111110#8] = .ok (.jmpr .r2, []) := by decide

theorem test_decode_clf : decode [0b01101010#8] = .ok (.clf, []) := by decide

theorem test_decode_ind : decode [0b01110011#8] = .ok (.ind .r3, []) := by decide

theorem test_decode_ina : decode [0b01110100#8] = .ok (.ina .r0, []) := by decide

theorem test_decode_outd : decode [0b01111001#8] = .ok (.outd .r1, []) := by decide

theorem test_decode_outa : decode [0b01111110#8] = .ok (.outa .r2, []) := by decide

theorem test_decode_dta : decode [0b00100111#8, 0x9C#8] = .ok (.dta .r3 0x9C#8, []) := by decide

theorem test_decode_jmp : decode [0b01001111#8, 0x12#8, 0x34#8] = .ok (.jmp 0x1234#16, []) := by decide

theorem test_decode_jc : decode [0b01011000#8, 0x02#8, 0x40#8] = .ok (.jc 0x0240#16, []) := by decide

theorem test_decode_ja : decode [0b01010100#8, 0x02#8, 0x40#8] = .ok (.ja 0x0240#16, []) := by decide

theorem test_decode_je : decode [0b01010010#8, 0x02#8, 0x40#8] = .ok (.je 0x0240#16, []) := by decide

theorem test_decode_jz : decode [0b01010001#8, 0x02#8, 0x40#8] = .ok (.jz 0x0240#16, []) := by decide

theorem test_decode_jca : decode [0b01011100#8, 0x02#8, 0x40#8] = .ok (.jca 0x0240#16, []) := by decide

theorem test_decode_jce : decode [0b01011010#8, 0x02#8, 0x40#8] = .ok (.jce 0x0240#16, []) := by decide

theorem test_decode_jcz : decode [0b01011001#8, 0x02#8, 0x40#8] = .ok (.jcz 0x0240#16, []) := by decide

theorem test_decode_jae : decode [0b01010110#8, 0x02#8, 0x40#8] = .ok (.jae 0x0240#16, []) := by decide

theorem test_decode_jaz : decode [0b01010101#8, 0x02#8, 0x40#8] = .ok (.jaz 0x0240#16, []) := by decide

theorem test_decode_jez : decode [0b01010011#8, 0x02#8, 0x40#8] = .ok (.jez 0x0240#16, []) := by decide

theorem test_decode_jcae : decode [0b01011110#8, 0x02#8, 0x40#8] = .ok (.jcae 0x0240#16, []) := by decide

theorem test_decode_jcaz : decode [0b01011101#8, 0x02#8, 0x40#8] = .ok (.jcaz 0x0240#16, []) := by decide

theorem test_decode_jcez : decode [0b01011011#8, 0x02#8, 0x40#8] = .ok (.jcez 0x0240#16, []) := by decide

theorem test_decode_jaez : decode [0b01010111#8, 0x02#8, 0x40#8] = .ok (.jaez 0x0240#16, []) := by decide

theorem test_decode_jcaez : decode [0b01011111#8, 0x02#8, 0x40#8] = .ok (.jcaez 0x0240#16, []) := by decide

theorem test_decode_reserved : decode [0b01010000#8, 0x00#8, 0x00#8] = .ok (.reserved50 0x0000#16, []) := by decide

/-- 30_encoding.md R51: the length is the opcode byte's, and the bytes after the instruction are left. -/
theorem test_decode_leaves_the_rest : decode [0x60#8, 0x40#8] = .ok (.clf, [0x40#8]) := by decide

theorem test_decode_refuses_short_jump : decode [0x40#8, 0x12#8] = .error (.truncated 0x40#8) := by decide

theorem test_decode_refuses_no_bytes : decode [] = .error .noOpcode := by decide

/-- 30_encoding.md R55: an assembler emits zeros in ignored bits. -/
theorem test_encode_canonical :
    encode (.dta .r3 0x9C#8) = [0x23#8, 0x9C#8] ∧ encode (.jmpr .r2) = [0x32#8] ∧
    encode (.jmp 0x1234#16) = [0x40#8, 0x12#8, 0x34#8] ∧ encode .clf = [0x60#8] := by decide

/-- 30_encoding.md R60. -/
theorem test_assembly :
    (Instr.add .r0 .r1).assembly = "ADD R0, R1" ∧ (Instr.dta .r2 0x9C#8).assembly = "DTA R2, 0x9C" ∧
    (Instr.jmp 0x1234#16).assembly = "JMP 0x1234" ∧ Instr.clf.assembly = "CLF" := by decide

/-! ## Every row of the opcode table, as the first instruction after reset -/

theorem test_first_after_reset_one_byte :
    ([0x80, 0x90, 0xA0, 0xB0, 0xC0, 0xD0, 0xE0, 0xF0, 0x00, 0x10, 0x30, 0x60, 0x70, 0x74, 0x78, 0x7C].map
      (firstAfterReset 8)) =
    ["ADD", "SHL", "SHR", "NOT", "AND", "OR", "XOR", "CMP", "LD", "ST", "JMPR", "CLF", "IND", "INA", "OUTD", "OUTA"].map
      (fun m => some (m, true)) := by decide

theorem test_first_after_reset_longer :
    firstAfterReset 16 0x20 = some ("DTA", true) ∧
    ([0x40, 0x58, 0x54, 0x52, 0x51, 0x5C, 0x5A, 0x59, 0x56, 0x55, 0x53, 0x5E, 0x5D, 0x5B, 0x57, 0x5F].map
      (firstAfterReset 24)) =
    ["JMP", "JC", "JA", "JE", "JZ", "JCA", "JCE", "JCZ", "JAE", "JAZ", "JEZ", "JCAE", "JCAZ", "JCEZ", "JAEZ",
      "JCAEZ"].map (fun m => some (m, true)) := by decide

theorem test_first_after_reset_reserved : firstAfterReset 24 0x50 = some ("reserved_0x50", false) := by decide

/-! ## The ALU (95_test_vectors.md 2.1): result and defined flags of one step at 0x0010 -/

theorem test_add_carry :
    nextIs (step (machine 0x0010#16 [(0x10, 0x81#8)] 0x0F#8 0xF3#8 0x11#8 0x22#8)) (fun t =>
      t.regs == ⟨0x0F#8, 0x02#8, 0x11#8, 0x22#8⟩ && t.flags.c && !t.flags.z && t.pc == 0x0011#16) = true := by decide

theorem test_add_sum_256 :
    nextIs (step (machine 0x0010#16 [(0x10, 0x81#8)] 0xFF#8 0x01#8 0x11#8 0x22#8)) (fun t =>
      t.regs == ⟨0xFF#8, 0x00#8, 0x11#8, 0x22#8⟩ && t.flags.c && t.flags.z && t.pc == 0x0011#16) = true := by decide

theorem test_shl_bit7_to_carry :
    nextIs (step (machine 0x0010#16 [(0x10, 0x9A#8)] 0x11#8 0x22#8 0x80#8 0x33#8)) (fun t =>
      t.regs == ⟨0x11#8, 0x22#8, 0x00#8, 0x33#8⟩ && t.flags.c && t.flags.z && t.pc == 0x0011#16) = true := by decide

theorem test_shl_other_register :
    nextIs (step (machine 0x0010#16 [(0x10, 0x9C#8)] 0x11#8 0x22#8 0x33#8 0xFF#8)) (fun t =>
      t.regs == ⟨0xFE#8, 0x22#8, 0x33#8, 0xFF#8⟩ && t.flags.c && !t.flags.z && t.pc == 0x0011#16) = true := by decide

theorem test_shr_logical :
    nextIs (step (machine 0x0010#16 [(0x10, 0xA2#8)] 0x80#8 0x22#8 0x33#8 0x44#8)) (fun t =>
      t.regs == ⟨0x80#8, 0x22#8, 0x40#8, 0x44#8⟩ && !t.flags.c && !t.flags.z && t.pc == 0x0011#16) = true := by decide

theorem test_shr_bit0_to_carry :
    nextIs (step (machine 0x0010#16 [(0x10, 0xAF#8)] 0x11#8 0x22#8 0x33#8 0x01#8)) (fun t =>
      t.regs == ⟨0x11#8, 0x22#8, 0x33#8, 0x00#8⟩ && t.flags.c && t.flags.z && t.pc == 0x0011#16) = true := by decide

theorem test_not :
    nextIs (step (machine 0x0010#16 [(0x10, 0xB2#8)] 0x0F#8 0x22#8 0x33#8 0x44#8)) (fun t =>
      t.regs == ⟨0x0F#8, 0x22#8, 0xF0#8, 0x44#8⟩ && !t.flags.z && t.pc == 0x0011#16) = true := by decide

theorem test_not_zero :
    nextIs (step (machine 0x0010#16 [(0x10, 0xB5#8)] 0x11#8 0xFF#8 0x33#8 0x44#8)) (fun t =>
      t.regs == ⟨0x11#8, 0x00#8, 0x33#8, 0x44#8⟩ && t.flags.z && t.pc == 0x0011#16) = true := by decide

theorem test_and :
    nextIs (step (machine 0x0010#16 [(0x10, 0xCC#8)] 0x3C#8 0x22#8 0x33#8 0xF0#8)) (fun t =>
      t.regs == ⟨0x30#8, 0x22#8, 0x33#8, 0xF0#8⟩ && !t.flags.z && t.pc == 0x0011#16) = true := by decide

theorem test_and_zero :
    nextIs (step (machine 0x0010#16 [(0x10, 0xC6#8)] 0x11#8 0xAA#8 0x55#8 0x44#8)) (fun t =>
      t.regs == ⟨0x11#8, 0xAA#8, 0x00#8, 0x44#8⟩ && t.flags.z && t.pc == 0x0011#16) = true := by decide

theorem test_or :
    nextIs (step (machine 0x0010#16 [(0x10, 0xD6#8)] 0x11#8 0x81#8 0x18#8 0x44#8)) (fun t =>
      t.regs == ⟨0x11#8, 0x81#8, 0x99#8, 0x44#8⟩ && !t.flags.z && t.pc == 0x0011#16) = true := by decide

theorem test_or_zero :
    nextIs (step (machine 0x0010#16 [(0x10, 0xD3#8)] 0x00#8 0x22#8 0x33#8 0x00#8)) (fun t =>
      t.regs == ⟨0x00#8, 0x22#8, 0x33#8, 0x00#8⟩ && t.flags.z && t.pc == 0x0011#16) = true := by decide

theorem test_xor :
    nextIs (step (machine 0x0010#16 [(0x10, 0xE3#8)] 0xAA#8 0x22#8 0x33#8 0xFF#8)) (fun t =>
      t.regs == ⟨0xAA#8, 0x22#8, 0x33#8, 0x55#8⟩ && !t.flags.z && t.pc == 0x0011#16) = true := by decide

theorem test_xor_zero :
    nextIs (step (machine 0x0010#16 [(0x10, 0xE5#8)] 0x11#8 0xC3#8 0x33#8 0x44#8)) (fun t =>
      t.regs == ⟨0x11#8, 0x00#8, 0x33#8, 0x44#8⟩ && t.flags.z && t.pc == 0x0011#16) = true := by decide

theorem test_cmp_greater_unsigned :
    nextIs (step (machine 0x0010#16 [(0x10, 0xF1#8)] 0x80#8 0x7F#8 0x33#8 0x44#8)) (fun t =>
      t.regs == ⟨0x80#8, 0x7F#8, 0x33#8, 0x44#8⟩ && t.flags.a && !t.flags.e && t.pc == 0x0011#16) = true := by decide

theorem test_cmp_equal :
    nextIs (step (machine 0x0010#16 [(0x10, 0xFB#8)] 0x11#8 0x22#8 0x42#8 0x42#8)) (fun t =>
      t.regs == ⟨0x11#8, 0x22#8, 0x42#8, 0x42#8⟩ && !t.flags.a && t.flags.e && t.pc == 0x0011#16) = true := by decide

/-! ## Loads, stores, immediates, jumps, CLF (95_test_vectors.md 2.2) -/

theorem test_ld_page_zero :
    nextIs (step (machine 0x0200#16 [(0x00FF, 0x01#8), (0x0200, 0x0E#8), (0x02FF, 0x77#8)] 0x11#8 0x22#8 0x33#8 0xFF#8))
      (fun t => t.regs == ⟨0x11#8, 0x22#8, 0x01#8, 0xFF#8⟩ && t.pc == 0x0201#16) = true := by decide

theorem test_ld_same_register :
    nextIs (step (machine 0x0020#16 [(0x20, 0x05#8), (0x30, 0x99#8)] 0x11#8 0x30#8 0x33#8 0x44#8))
      (fun t => t.regs.r1 == 0x99#8 && t.pc == 0x0021#16) = true := by decide

theorem test_st :
    nextIs (step (machine 0x0020#16 [(0x20, 0x1B#8)] 0x11#8 0x22#8 0x80#8 0x5A#8))
      (fun t => t.mem == [(0x20, 0x1B#8), (0x80, 0x5A#8)] && t.pc == 0x0021#16) = true := by decide

/-- The stored byte 0x60, CLF, is the next instruction fetched. -/
theorem test_st_into_next_instruction :
    nextIs (step (machine 0x0010#16 [(0x10, 0x11#8), (0x11, 0xFF#8)] 0x11#8 0x60#8 0x33#8 0x44#8))
      (fun t => t.pc == 0x0011#16 && t.fetchInstr == .clf) = true := by decide

theorem test_dta_ignored_bits :
    nextIs (step (machine 0x0010#16 [(0x10, 0x2F#8), (0x11, 0x00#8)] 0x11#8 0x22#8 0x33#8 0x44#8))
      (fun t => t.regs == ⟨0x11#8, 0x22#8, 0x33#8, 0x00#8⟩ && t.pc == 0x0012#16 && !t.flags.z) = true := by decide

theorem test_dta_wraps :
    nextIs (step (machine 0xFFFF#16 [(0x0000, 0xAB#8), (0xFFFF, 0x20#8)] 0x11#8 0x22#8 0x33#8 0x44#8))
      (fun t => t.regs.r0 == 0xAB#8 && t.pc == 0x0001#16) = true := by decide

theorem test_jmpr :
    nextIs (step (machine 0x0300#16 [(0x0300, 0x31#8)] 0x11#8 0x2C#8 0x33#8 0x44#8)) (fun t => t.pc == 0x002C#16)
      = true := by decide

theorem test_jmp_big_endian :
    nextIs (step (machine 0x0000#16 [(0, 0x4F#8), (1, 0x12#8), (2, 0x34#8)] 0x11#8 0x22#8 0x33#8 0x44#8))
      (fun t => t.pc == 0x1234#16) = true := by decide

theorem test_jmp_address_wraps :
    nextIs (step (machine 0xFFFE#16 [(0x0000, 0xCD#8), (0xFFFE, 0x40#8), (0xFFFF, 0xAB#8)] 0x11#8 0x22#8 0x33#8 0x44#8))
      (fun t => t.pc == 0xABCD#16) = true := by decide

theorem test_clf :
    nextIs (step { machine 0x0009#16 [(9, 0x60#8)] 0x11#8 0x22#8 0x33#8 0x44#8 with flags := ⟨true, false, true, true⟩ })
      (fun t => t.flags == ⟨false, false, false, false⟩ && t.pc == 0x000A#16) = true := by decide

/-! ## Conditional jumps: the taken and the not taken example of R91 to R105 -/

theorem test_jc :
    jumpFrom0010 0x58#8 true false false false = some 0x0240#16 ∧
    jumpFrom0010 0x58#8 false true true true = some 0x0013#16 := by decide

theorem test_ja :
    jumpFrom0010 0x54#8 false true false false = some 0x0240#16 ∧
    jumpFrom0010 0x54#8 true false true true = some 0x0013#16 := by decide

theorem test_je :
    jumpFrom0010 0x52#8 false false true false = some 0x0240#16 ∧
    jumpFrom0010 0x52#8 true true false true = some 0x0013#16 := by decide

theorem test_jz :
    jumpFrom0010 0x51#8 false false false true = some 0x0240#16 ∧
    jumpFrom0010 0x51#8 true true true false = some 0x0013#16 := by decide

theorem test_jca :
    jumpFrom0010 0x5C#8 false true false false = some 0x0240#16 ∧
    jumpFrom0010 0x5C#8 false false true true = some 0x0013#16 := by decide

theorem test_jce :
    jumpFrom0010 0x5A#8 false false true false = some 0x0240#16 ∧
    jumpFrom0010 0x5A#8 false true false true = some 0x0013#16 := by decide

theorem test_jcz :
    jumpFrom0010 0x59#8 false false false true = some 0x0240#16 ∧
    jumpFrom0010 0x59#8 false true true false = some 0x0013#16 := by decide

theorem test_jae :
    jumpFrom0010 0x56#8 false false true false = some 0x0240#16 ∧
    jumpFrom0010 0x56#8 true false false true = some 0x0013#16 := by decide

theorem test_jaz :
    jumpFrom0010 0x55#8 false false false true = some 0x0240#16 ∧
    jumpFrom0010 0x55#8 true false true false = some 0x0013#16 := by decide

theorem test_jez :
    jumpFrom0010 0x53#8 false false false true = some 0x0240#16 ∧
    jumpFrom0010 0x53#8 true true false false = some 0x0013#16 := by decide

theorem test_jcae :
    jumpFrom0010 0x5E#8 false false true false = some 0x0240#16 ∧
    jumpFrom0010 0x5E#8 false false false true = some 0x0013#16 := by decide

theorem test_jcaz :
    jumpFrom0010 0x5D#8 false false false true = some 0x0240#16 ∧
    jumpFrom0010 0x5D#8 false false true false = some 0x0013#16 := by decide

theorem test_jcez :
    jumpFrom0010 0x5B#8 false false false true = some 0x0240#16 ∧
    jumpFrom0010 0x5B#8 false true false false = some 0x0013#16 := by decide

theorem test_jaez :
    jumpFrom0010 0x57#8 false false false true = some 0x0240#16 ∧
    jumpFrom0010 0x57#8 true false false false = some 0x0013#16 := by decide

theorem test_jcaez :
    jumpFrom0010 0x5F#8 false false false true = some 0x0240#16 ∧
    jumpFrom0010 0x5F#8 false false false false = some 0x0013#16 := by decide

/-- 95_test_vectors.md 2.3: a jump at 0xFFFD that is not taken continues at 0x0000. -/
theorem test_jc_falls_through_the_top :
    nextIs (step (machine 0xFFFD#16 [(0xFFFD, 0x58#8), (0xFFFE, 0x02#8), (0xFFFF, 0x40#8)] 0x11#8 0x22#8 0x33#8 0x44#8))
      (fun t => t.pc == 0x0000#16) = true := by decide

/-- 95_test_vectors.md 2.3: byte 0x50 at 0x0010. -/
theorem test_reserved_faults :
    step (machine 0x0010#16 [(0x10, 0x50#8), (0x11, 0x00#8), (0x12, 0x00#8)] 0x11#8 0x22#8 0x33#8 0x44#8) =
      .fault (.reservedOpcode 0x0010#16) := rfl

/-! ## Input and output (95_test_vectors.md 2.4) -/

theorem test_ind (v : Byte) (h : Config.ioIn 0 [] .data = v) :
    step (machine 0x0003#16 [(3, 0x72#8)] 0x11#8 0x22#8 0x33#8 0x44#8) =
      .next { machine 0x0004#16 [(3, 0x72#8)] 0x11#8 0x22#8 v 0x44#8 with trace := [.input .data v], draws := 1 } := by
  subst h
  rfl

theorem test_ina (v : Byte) (h : Config.ioIn 0 [] .addr = v) :
    step (machine 0x0003#16 [(3, 0x77#8)] 0x11#8 0x22#8 0x33#8 0x44#8) =
      .next { machine 0x0004#16 [(3, 0x77#8)] 0x11#8 0x22#8 0x33#8 v with trace := [.input .addr v], draws := 1 } := by
  subst h
  rfl

theorem test_outd :
    nextIs (step (machine 0x0003#16 [(3, 0x79#8)] 0x11#8 0x48#8 0x33#8 0x44#8))
      (fun t => t.trace == [.output .data 0x48#8] && t.regs.r1 == 0x48#8 && t.pc == 0x0004#16) = true := by decide

theorem test_outa :
    nextIs (step (machine 0x0003#16 [(3, 0x7E#8)] 0x11#8 0x22#8 0x80#8 0x44#8))
      (fun t => t.trace == [.output .addr 0x80#8] && t.pc == 0x0004#16) = true := by decide

/-! ## Witnesses: values that meet the hypotheses of each statement, clause by clause, at the ends of their ranges -/

/-- CLF at 0xFFFF, the last address. -/
def lastByte : State := machine 0xFFFF#16 [(0xFFFF, 0x60#8)] 0x11#8 0x22#8 0x33#8 0x44#8

/-- ST R0, R1 at 0x0010, with JMP 0x0011 after it. -/
def storing : State :=
  machine 0x0010#16 [(0x10, 0x11#8), (0x11, 0x40#8), (0x12, 0x00#8), (0x13, 0x11#8)] 0x00#8 0xFF#8 0x33#8 0x44#8

/-- Three bytes across the top of memory: JCAEZ 0xABCD at 0xFFFE, with the flags given. -/
def jumpAtTop (op : Byte) (f : Flags) : State :=
  { machine 0xFFFE#16 [(0x0000, 0xCD#8), (0xFFFE, op), (0xFFFF, 0xAB#8)] 0x11#8 0x22#8 0x33#8 0x44#8 with flags := f }

theorem holds_jumpAtTop (op : Byte) (f : Flags) : (jumpAtTop op f).holdsCode [op, 0xAB#8, 0xCD#8] :=
  holdsCode_three (by simp [jumpAtTop, machine, Memory.byteAt]) (by simp [jumpAtTop, machine, Memory.byteAt])
    (by simp [jumpAtTop, machine, Memory.byteAt])

theorem witness_InstructionLengthByHighNibble :
    ([0x12#8].length + 1 < instrLength 0x4F#8 ∧ ([] : List Byte).length + 1 < instrLength 0x20#8) ∧
    instrLength 0x5F#8 ≤ [0x12#8, 0x34#8].length + 1 ∧ instrLength 0x2F#8 ≤ [0x9C#8].length + 1 ∧
    instrLength 0xFF#8 ≤ ([] : List Byte).length + 1 := by decide

theorem witness_OnlyByte50IsReserved :
    (decodeStream fun _ => 0x50#8).wellFormed = false ∧ (decodeStream fun _ => 0x4F#8).wellFormed = true ∧
    (decodeStream fun _ => 0x51#8).wellFormed = true := by decide

theorem witness_JumpMnemonicNamesItsFlags : 0b0001#4 ≠ 0#4 ∧ 0b1111#4 ≠ 0#4 := by decide

theorem witness_StepRunsDecodedInstruction :
    (lastByte.fault = none ∧ lastByte.holdsCode [0x60#8] ∧ decode [0x60#8] = .ok (.clf, [])) ∧
    ((jumpAtTop 0x5F#8 clearFlags).fault = none ∧ (jumpAtTop 0x5F#8 clearFlags).holdsCode [0x5F#8, 0xAB#8, 0xCD#8] ∧
      decode [0x5F#8, 0xAB#8, 0xCD#8] = .ok (.jcaez 0xABCD#16, [])) :=
  ⟨⟨rfl, holdsCode_one rfl, rfl⟩, rfl, holds_jumpAtTop _ _, rfl⟩

/-- A byte that is listed and one that is not, at the ends of memory. -/
theorem witness_FetchWrapsAndDrawsUnwrittenBytes :
    lastByte.fault = none ∧ lastByte.mem.byteAt ((lastByte.pc.toNat + 0) % 65536) = some 0x60#8 ∧
    lastByte.mem.byteAt ((lastByte.pc.toNat + 1) % 65536) = none := by decide

theorem witness_FaultMarkStopsTheMachine :
    (lastByte.stopped (.reservedOpcode 0xFFFF#16)).fault = some (.reservedOpcode 0xFFFF#16) ∧
    ((jumpAtTop 0x50#8 clearFlags).fault = none ∧ (jumpAtTop 0x50#8 clearFlags).fetchByte 0 = 0x50#8) ∧
    ((jumpAtTop 0x4F#8 clearFlags).fault = none ∧ (jumpAtTop 0x4F#8 clearFlags).fetchByte 0 ≠ 0x50#8) ∧
    ((jumpAtTop 0x51#8 clearFlags).fault = none ∧ (jumpAtTop 0x51#8 clearFlags).fetchByte 0 ≠ 0x50#8) := by decide

theorem witness_EveryInstructionCompletes : (Instr.jcaez 0xFFFF#16).wellFormed = true := rfl

/-- The three outcomes of the comparison at neighbouring values. -/
theorem witness_CmpThenJumpComparesUnsigned :
    ∀ y ∈ [0x7F#8, 0x80#8, 0x81#8],
      ∃ t, exec (.cmp .r0 .r1) (machine 0x0010#16 [] 0x80#8 y 0x33#8 0x44#8) = .next t :=
  fun _ _ => ⟨_, rfl⟩

/-- The two cases of the stored-to address, at the ends of what ST reaches. -/
theorem witness_StWritesAddressedByte :
    0x0000 = (storing.regA .r0).toNat ∧ 0x00FF = (storing.regA .r1).toNat ∧ 0x0100 ≠ (storing.regA .r1).toNat := by
  decide

theorem witness_DtaLoadsImmediate :
    (0 < 4 ∧ 3 < 4) ∧
    (let s := machine 0xFFFF#16 [(0x0000, 0xAB#8), (0xFFFF, 0x2F#8)] 0x11#8 0x22#8 0x33#8 0x44#8
     s.fault = none ∧ s.holdsCode [BitVec.ofNat 8 (0x20 + 4 * 3 + Reg.r3.bits.toNat), 0xAB#8]) :=
  ⟨by decide, rfl, holdsCode_two rfl rfl⟩

theorem witness_JmprJumpsToRegister : 0 < 4 ∧ 3 < 4 := by decide

theorem witness_JmpJumpsToBigEndianImmediate :
    (0 < 16 ∧ 15 < 16) ∧ (jumpAtTop 0x4F#8 clearFlags).fault = none ∧
    (jumpAtTop 0x4F#8 clearFlags).holdsCode [BitVec.ofNat 8 (0x40 + 15), 0xAB#8, 0xCD#8] :=
  ⟨by decide, rfl, holds_jumpAtTop _ _⟩

theorem witness_ClfClearsAllFlags : 0 < 16 ∧ 15 < 16 := by decide

/-- Masks 1 and 15, each taken and not taken. -/
theorem witness_JumpMaskSelectsFlags :
    (∀ f ∈ [(⟨true, true, true, false⟩ : Flags), ⟨false, false, false, true⟩],
      (jumpAtTop 0x51#8 f).fault = none ∧ (jumpAtTop 0x51#8 f).holdsCode [BitVec.ofNat 8 (0x50 + 1), 0xAB#8, 0xCD#8]) ∧
    (∀ f ∈ [clearFlags, (⟨true, false, false, false⟩ : Flags)],
      (jumpAtTop 0x5F#8 f).fault = none ∧ (jumpAtTop 0x5F#8 f).holdsCode [BitVec.ofNat 8 (0x50 + 15), 0xAB#8, 0xCD#8]) :=
  ⟨fun f _ => ⟨rfl, holds_jumpAtTop _ f⟩, fun f _ => ⟨rfl, holds_jumpAtTop _ f⟩⟩

theorem witness_ClfThenConditionalJumpFallsThrough :
    isCondJump (.jcaez 0x0240#16) = true ∧ ∃ t, exec .clf lastByte = .next t := ⟨rfl, _, rfl⟩

theorem witness_IoTraceIsOnlyExtended :
    ∃ t, run 1 (machine 0x0003#16 [(3, 0x7E#8)] 0x11#8 0x22#8 0x80#8 0x44#8) = .next t ∧ t.trace ≠ [] :=
  ⟨_, rfl, by decide⟩

/-- ADD R0, R1: R2 is no destination, R1 is, and changing R2 and R3 keeps what it reads. -/
theorem witness_RegisterReadsAndWrites :
    (∃ t, exec (.add .r0 .r1) lastByte = .next t) ∧ destReg (.add .r0 .r1) ≠ some .r2 ∧
    destReg (.add .r0 .r1) = some .r1 ∧
    ∀ r ∈ readRegs (.add .r0 .r1), (PerReg.get ⟨0x11#8, 0x22#8, 0x00#8, 0x00#8⟩ r = lastByte.regs.get r ∧
      PerReg.get ⟨true, true, false, false⟩ r = lastByte.written.get r) :=
  ⟨⟨_, rfl⟩, by decide, rfl, by decide⟩

/-- Both positions of a form, one register in both, and the two forms of the second clause. -/
theorem witness_ListedReadsHaveInfluenceExceptXorCmpOfOneRegister :
    (Reg.r0 ∈ readRegs (.st .r0 .r3) ∧ Reg.r3 ∈ readRegs (.st .r0 .r3) ∧ Reg.r3 ∈ readRegs (.and .r3 .r3)) ∧
    (∀ q, Instr.st .r0 .r3 ≠ .xor q q ∧ Instr.st .r0 .r3 ≠ .cmp q q) ∧
    (∀ q, Instr.and .r3 .r3 ≠ .xor q q ∧ Instr.and .r3 .r3 ≠ .cmp q q) ∧
    (∀ q, Instr.xor .r0 .r1 ≠ .xor q q ∧ Instr.xor .r0 .r1 ≠ .cmp q q) ∧
    lastByte.written.get .r0 = true ∧ lastByte.written.get .r3 = true := by
  refine ⟨by decide, ?_, ?_, ?_, rfl, rfl⟩ <;> intro q <;> cases q <;> decide

theorem witness_UnwrittenRegisterReadsAreDraws :
    State.reset.written.get .r0 = false ∧ lastByte.written.get .r3 = true ∧ ∃ t, run 1 lastByte = .next t :=
  ⟨rfl, rfl, _, rfl⟩

/-- Two different states that the statement compares, one pair that completes and one that faults. -/
theorem witness_UnwrittenContentsAreNeverSeen :
    (SameUpToUnwritten (State.reset.withFetchWord 8 0x60)
        { State.reset.withFetchWord 8 0x60 with regs := ⟨0x01#8, 0x02#8, 0x03#8, 0xFF#8⟩ } ∧
      ∃ t, run 1 (State.reset.withFetchWord 8 0x60) = .next t) ∧
    (SameUpToUnwritten (State.reset.withFetchWord 24 0x50)
        { State.reset.withFetchWord 24 0x50 with regs := ⟨0x01#8, 0x02#8, 0x03#8, 0xFF#8⟩ } ∧
      ∃ f, run 1 (State.reset.withFetchWord 24 0x50) = .fault f) := by
  refine ⟨⟨⟨rfl, ?_⟩, _, rfl⟩, ⟨rfl, ?_⟩, _, rfl⟩ <;> intro r hr <;> cases r <;> cases hr

theorem witness_FlagsAndPcNeverReachRegisters :
    (∃ t, exec (.add .r0 .r1) lastByte = .next t) ∧ isCondJump (.add .r0 .r1) = false ∧ 0xFFFF#16 = lastByte.pc :=
  ⟨⟨_, rfl⟩, rfl, rfl⟩

theorem witness_OnlyJumpsDivertTheProgram :
    (∃ t, exec (.jmpr .r0) lastByte = .next t) ∧ ∃ t, exec (.ld .r0 .r1) lastByte = .next t := ⟨⟨_, rfl⟩, _, rfl⟩

theorem witness_PcArithmeticWraps :
    (isJump (.dta .r0 0xAB#8) = false ∧ lastByte.pc = 0xFFFF#16 ∧ ∃ t, exec (.dta .r0 0xAB#8) lastByte = .next t) ∧
    (let s := machine 0xFFFF#16 [(0x0000, 0xAB#8), (0xFFFF, 0x23#8)] 0x11#8 0x22#8 0x33#8 0x44#8
     s.fault = none ∧ s.pc = 0xFFFF#16 ∧ (0x23#8).toNat = 0x20 + Reg.r3.bits.toNat ∧
      s.mem.byteAt 0xFFFF = some 0x23#8 ∧ s.mem.byteAt 0x0000 = some 0xAB#8) :=
  ⟨⟨rfl, rfl, _, rfl⟩, by decide⟩

/-- ST at both ends of what it reaches, an instruction that stores nothing, and one that writes no flag. -/
theorem witness_FrameOfEveryInstruction :
    (∃ t, exec (.st .r0 .r1) storing = .next t) ∧ storeAddr (.st .r0 .r1) storing = some 0x0000#16 ∧
    storeAddr (.st .r1 .r0) storing = some 0x00FF#16 ∧ 0x0001 ≠ (0x0000#16).toNat ∧ 0x0100 ≠ (0x00FF#16).toNat ∧
    (∃ t, exec (.outd .r1) storing = .next t) ∧ storeAddr (.outd .r1) storing = none ∧
    writesFlags (.outd .r1) = false :=
  ⟨⟨_, rfl⟩, by decide, by decide, by decide, by decide, ⟨_, rfl⟩, rfl, rfl⟩

/-- ST R0, R1 at 0xFFFE storing to 0x0000, the byte two after it: a fetch of it right after the ST and after one more
instruction, CLF at 0xFFFF; and the byte between, which is fetched as before. -/
theorem witness_StoreIsSeenByLaterFetches :
    let s := machine 0xFFFE#16 [(0xFFFE, 0x11#8), (0xFFFF, 0x60#8)] 0x00#8 0x60#8 0x33#8 0x44#8
    (∃ t, exec (.st .r0 .r1) s = .next t ∧ run 0 t = .next t ∧ (t.pc.toNat + 1) % 65536 = (s.regA .r0).toNat) ∧
    (∃ t u, exec (.st .r0 .r1) s = .next t ∧ run 1 t = .next u ∧
      (∀ j v, j < 1 → run j t = .next v → storeAddr v.fetchInstr v ≠ some (s.addrA .r0)) ∧
      (u.pc.toNat + 0) % 65536 = (s.regA .r0).toNat) ∧
    (∃ t, exec (.st .r0 .r1) s = .next t) ∧ (s.pc.toNat + 1 + 0) % 65536 ≠ (s.regA .r0).toNat := by
  refine ⟨⟨_, rfl, rfl, by decide⟩, ⟨_, _, rfl, rfl, ?_, by decide⟩, ⟨_, rfl⟩, by decide⟩
  intro j v hj hv
  obtain rfl : j = 0 := by omega
  injection hv with hv
  subst hv
  decide

/-- ST R1, R0, with no step and with one step (a JMP) before the load; and a load with nothing stored. -/
theorem witness_LoadReturnsLatestStore :
    (∃ t u, exec (.st .r1 .r0) storing = .next t ∧ run 0 t = .next u ∧ u.regA .r1 = storing.regA .r1) ∧
    (∃ t u, exec (.st .r1 .r0) storing = .next t ∧ run 1 t = .next u ∧
      (∀ j v, j < 1 → run j t = .next v → storeAddr v.fetchInstr v ≠ some (storing.addrA .r1)) ∧
      u.regA .r1 = storing.regA .r1) ∧
    (∃ u, run 1 lastByte = .next u ∧
      ∀ j v, j < 1 → run j lastByte = .next v → storeAddr v.fetchInstr v ≠ some (u.addrA .r0)) := by
  refine ⟨⟨_, _, rfl, rfl, rfl⟩, ⟨_, _, rfl, rfl, ?_, rfl⟩, _, rfl, ?_⟩
  · intro j v hj hv
    obtain rfl : j = 0 := by omega
    injection hv with hv
    subst hv
    decide
  · intro j v hj hv
    obtain rfl : j = 0 := by omega
    injection hv with hv
    subst hv
    decide

theorem witness_StoresStayInPageZero : (∃ t, run 1 storing = .next t) ∧ 256 ≤ 256 ∧ 256 ≤ 65535 :=
  ⟨⟨_, rfl⟩, by decide, by decide⟩

/-- The same bytes stored in two orders, at both ends of memory. -/
theorem witness_CanonicalMemoriesAreEqual :
    let m := (Memory.store [] 0x0000 0x01#8).store 0xFFFF 0x02#8
    let m' := (Memory.store [] 0xFFFF 0x02#8).store 0x0000 0x01#8
    m.wf = true ∧ m'.wf = true ∧ ∀ x, x < 65536 → m.byteAt x = m'.byteAt x :=
  ⟨rfl, rfl, fun _ _ => rfl⟩

theorem witness_StepKeepsInvariant : storing.Inv ∧ ∃ t, step storing = .next t := ⟨⟨rfl, rfl⟩, _, rfl⟩

/-- An image that covers both ends of memory, an address it does not cover, and one it gives twice. -/
theorem witness_ResetLeavesRegistersUnspecified :
    (∀ v, (0x0001#16, v) ∉ [(0x0000#16, 0x60#8), (0xFFFF#16, 0x60#8)]) ∧
    (∀ w, (0x0000#16, w) ∉ [(0xFFFF#16, 0x60#8)]) := by
  refine ⟨fun v h => ?_, fun w h => ?_⟩ <;> simp at h

theorem witness_LoadedWordRunsNext :
    decodeTableWord 24 0x341240 = some (.jmp 0x1234#16) ∧ decodeTableWord 8 0xFF = some (.cmp .r3 .r3) ∧
    (∀ k, k < 3 → 0x0002 ≠ (lastByte.pc.toNat + k) % 65536) ∧
    ∀ k, k < 3 → 0xFFFE ≠ (lastByte.pc.toNat + k) % 65536 := by decide

/-- The end-of-run marker with its ignored bits all ones, across the top of memory. -/
theorem witness_EndMarkerNeverLeaves :
    let s := machine 0xFFFE#16 [(0x0000, 0xFE#8), (0xFFFE, 0x4F#8), (0xFFFF, 0xFF#8)] 0x11#8 0x22#8 0x33#8 0x44#8
    s.fault = none ∧ s.atEndMarker :=
  ⟨rfl, 0x4F#8, 0xFF#8, 0xFE#8, by decide, by decide, holdsCode_three rfl rfl rfl, by decide⟩

end Sys2Proof.Tests
end

section
/-! The effect of every instruction, field by field, in one next state: what an instruction that completes does is said
here once, and the statements about all instructions are read off it. -/

namespace Sys2Proof.Machine

/-- The value an instruction puts into its destination register; 0 where it has none. -/
def destValue (i : Instr) (s : State) : Byte :=
  match i with
  | .add a b => addResult (s.regA a) (s.regB b)
  | .shl a _ => shlResult (s.regA a)
  | .shr a _ => shrResult (s.regA a)
  | .not a _ => ~~~(s.regA a)
  | .and a b => s.regA a &&& s.regB b
  | .or a b => s.regA a ||| s.regB b
  | .xor a b => s.regA a ^^^ s.regB b
  | .ld a _ => s.memRead .load (s.addrA a)
  | .dta _ data => data
  | .ind _ => s.ioAnswer .data
  | .ina _ => s.ioAnswer .addr
  | _ => 0x00#8

/-- The flags after an instruction (10_state.md R18). -/
def flagsAfter (i : Instr) (s : State) : Flags :=
  match i with
  | .add a b => addFlags s.draws (s.regA a) (s.regB b)
  | .shl a _ => shlFlags s.draws (s.regA a)
  | .shr a _ => shrFlags s.draws (s.regA a)
  | .not _ _ | .and _ _ | .or _ _ | .xor _ _ => logicFlags s.draws (destValue i s)
  | .cmp a b => cmpFlags s.draws (s.regA a) (s.regB b)
  | .clf => clearFlags
  | _ => s.flags

/-- The memory after an instruction: ST alone changes it (20_memory.md R36). -/
def memAfter (i : Instr) (s : State) : Memory :=
  match i with
  | .st a b => s.mem.store (s.addrA a).toNat (s.regB b)
  | _ => s.mem

/-- The mask and the target of a conditional jump (42_conditional_jumps.md R91 to R105). -/
def condJump : Instr → Option (BitVec 4 × Addr)
  | .jc addr => some (0b1000#4, addr)
  | .ja addr => some (0b0100#4, addr)
  | .je addr => some (0b0010#4, addr)
  | .jz addr => some (0b0001#4, addr)
  | .jca addr => some (0b1100#4, addr)
  | .jce addr => some (0b1010#4, addr)
  | .jcz addr => some (0b1001#4, addr)
  | .jae addr => some (0b0110#4, addr)
  | .jaz addr => some (0b0101#4, addr)
  | .jez addr => some (0b0011#4, addr)
  | .jcae addr => some (0b1110#4, addr)
  | .jcaz addr => some (0b1101#4, addr)
  | .jcez addr => some (0b1011#4, addr)
  | .jaez addr => some (0b0111#4, addr)
  | .jcaez addr => some (0b1111#4, addr)
  | _ => none

/-- Where an instruction goes (10_state.md R14, 60_exceptions.md R126). -/
def pcAfter (i : Instr) (s : State) : Addr :=
  match i with
  | .jmpr b => s.addrB b
  | .jmp addr => addr
  | _ =>
    match condJump i with
    | some (cccc, addr) => if condition cccc s.flags then addr else s.pc + 3#16
    | none => s.pc + BitVec.ofNat 16 i.length

/-- One value for each register, with `v` at the destination of `i`, if it has one. -/
def setDest {α : Type} (i : Instr) (p : PerReg α) (v : α) : PerReg α :=
  match destReg i with
  | some b => p.set b v
  | none => p

/-- The I/O trace after an instruction (43_io.md R110). -/
def traceAfter (i : Instr) (s : State) : List IoEvent :=
  match ioEvent i s with
  | some event => s.trace ++ [event]
  | none => s.trace

/-- The state after an instruction that completes. -/
def nextState (i : Instr) (s : State) : State where
  regs := setDest i s.regs (destValue i s)
  written := setDest i s.written true
  pc := pcAfter i s
  flags := flagsAfter i s
  mem := memAfter i s
  trace := traceAfter i s
  fault := s.fault
  draws := s.draws + 1

/-- Every instruction but the reserved encoding completes, in `nextState`. -/
theorem exec_of_wellFormed {i : Instr} (s : State) (h : i.wellFormed = true) : exec i s = .next (nextState i s) := by
  cases i with
  | reserved50 addr => cases h
  | jc addr | ja addr | je addr | jz addr | jca addr | jce addr | jcz addr | jae addr | jaz addr | jez addr
  | jcae addr | jcaz addr | jcez addr | jaez addr | jcaez addr =>
    exact jumpIf_eq s _ addr
  | _ => rfl

/-- An instruction that answers a next state is not the reserved encoding, and the state is `nextState`. -/
theorem exec_next {i : Instr} {s t : State} (h : exec i s = .next t) : i.wellFormed = true ∧ t = nextState i s := by
  cases i with
  | reserved50 addr => cases h
  | _ =>
    rw [exec_of_wellFormed s rfl] at h
    injection h with h
    exact ⟨rfl, h.symm⟩

/-- Only the destination takes the new value (10_state.md R12). -/
@[simp] theorem get_setDest {α : Type} (i : Instr) (p : PerReg α) (v : α) (r : Reg) :
    (setDest i p v).get r = if destReg i = some r then v else p.get r := by
  unfold setDest
  cases destReg i with
  | none => simp
  | some b => simp [eq_comm]

/-- An instruction that writes no flag keeps them (10_state.md R18). -/
theorem flagsAfter_of_keeps {i : Instr} (s : State) (h : writesFlags i = false) : flagsAfter i s = s.flags := by
  cases i with
  | add a b | shl a b | shr a b | not a b | and a b | or a b | xor a b | cmp a b => cases h
  | clf => cases h
  | _ => rfl

/-- Memory changes at no address but the one stored to (20_memory.md R33, R36). -/
theorem byteAt_memAfter {i : Instr} {s : State} {x : Nat}
    (h : ∀ addr, storeAddr i s = some addr → x ≠ addr.toNat) :
    (memAfter i s).byteAt x = s.mem.byteAt x := by
  cases i with
  | st a b => exact (byteAt_store _ _ _ _).trans (if_neg (h _ rfl))
  | _ => rfl

/-- A store goes to an address below 256 (10_state.md R15, 20_memory.md R37). -/
theorem storeAddr_lt {i : Instr} {s : State} {addr : Addr} (h : storeAddr i s = some addr) : addr.toNat < 256 := by
  cases i with
  | st a b =>
    cases h
    rw [State.addrA, zext16_toNat]
    exact (s.regA a).isLt
  | _ => cases h

/-- The trace grows by the instruction's own event, if it has one (43_io.md R110). -/
theorem traceAfter_eq (i : Instr) (s : State) : traceAfter i s = s.trace ++ (ioEvent i s).toList := by
  unfold traceAfter
  cases ioEvent i s with
  | none => exact (List.append_nil _).symm
  | some event => rfl

/-- An instruction that is no jump falls through (10_state.md R14). -/
theorem pcAfter_of_not_jump {i : Instr} (s : State) (h : isJump i = false) :
    pcAfter i s = s.codeAddr i.length := by
  cases i with
  | jmpr b | jmp addr => cases h
  | jc addr | ja addr | je addr | jz addr | jca addr | jce addr | jcz addr | jae addr | jaz addr | jez addr
  | jcae addr | jcaz addr | jcez addr | jaez addr | jcaez addr => cases h
  | _ => rfl

/-- A step that answers a next state answers `nextState` of the fetched instruction. -/
theorem step_next_eq {s t : State} (h : step s = .next t) : t = nextState s.fetchInstr s :=
  (exec_next (step_next h).2).2

end Sys2Proof.Machine
end

section
/-! Two states that an instruction cannot tell apart by what it reads: the congruences from which every statement that
compares two executions follows. -/

namespace Sys2Proof.Machine

/-- The registers that `i` reads (10_state.md R12) read alike in `s` and `s'`, and the two hold the same memory, I/O
trace and draw counter. -/
structure ReadsAlike (i : Instr) (s s' : State) : Prop where
  reg : ∀ pos, ∀ r ∈ readRegs i, s'.readReg pos r = s.readReg pos r
  mem : s'.mem = s.mem
  trace : s'.trace = s.trace
  draws : s'.draws = s.draws

namespace ReadsAlike

variable {i : Instr} {s s' : State}

theorem regAB (h : ReadsAlike i s s') {a b : Reg} (hi : readRegs i = [a, b]) :
    s'.regA a = s.regA a ∧ s'.regB b = s.regB b :=
  ⟨h.reg .regA a (by simp [hi]), h.reg .regB b (by simp [hi])⟩

theorem regA (h : ReadsAlike i s s') {a : Reg} (hi : readRegs i = [a]) : s'.regA a = s.regA a :=
  h.reg .regA a (by simp [hi])

theorem regB (h : ReadsAlike i s s') {b : Reg} (hi : readRegs i = [b]) : s'.regB b = s.regB b :=
  h.reg .regB b (by simp [hi])

theorem ioAnswer_congr (h : ReadsAlike i s s') (kind : IoKind) : s'.ioAnswer kind = s.ioAnswer kind := by
  simp only [State.ioAnswer, h.trace, h.draws]

theorem destValue_congr (h : ReadsAlike i s s') : destValue i s' = destValue i s := by
  cases i with
  | add a b | and a b | or a b | xor a b => simp [destValue, h.regAB rfl]
  | shl a b | shr a b | not a b => simp [destValue, h.regA rfl]
  | ld a b => simp [destValue, memRead_eq, State.addrA, h.regA rfl, h.mem, h.draws]
  | ind b | ina b => exact h.ioAnswer_congr _
  | _ => rfl

/-- The flags an instruction writes are alike; an instruction that writes none keeps those it finds. -/
theorem flagsAfter_congr (h : ReadsAlike i s s') :
    flagsAfter i s' = if writesFlags i then flagsAfter i s else s'.flags := by
  have hv := h.destValue_congr
  cases i with
  | add a b | cmp a b => simp [flagsAfter, writesFlags, h.regAB rfl, h.draws]
  | shl a b | shr a b => simp [flagsAfter, writesFlags, h.regA rfl, h.draws]
  | not a b | and a b | or a b | xor a b => simp [flagsAfter, writesFlags, hv, h.draws]
  | _ => rfl

theorem memAfter_congr (h : ReadsAlike i s s') : memAfter i s' = memAfter i s := by
  cases i with
  | st a b => simp [memAfter, State.addrA, h.regAB rfl, h.mem]
  | _ => exact h.mem

theorem traceAfter_congr (h : ReadsAlike i s s') : traceAfter i s' = traceAfter i s := by
  have hevent : ioEvent i s' = ioEvent i s := by
    cases i with
    | ind b | ina b => simp [ioEvent, h.ioAnswer_congr]
    | outd b | outa b => simp [ioEvent, h.regB rfl]
    | _ => rfl
  rw [traceAfter_eq, traceAfter_eq, hevent, h.trace]

/-- From the same pc an instruction goes to the same place; a conditional jump, if the flags are the same too. -/
theorem pcAfter_congr (h : ReadsAlike i s s') (hpc : s'.pc = s.pc)
    (hflags : isCondJump i = true → s'.flags = s.flags) :
    pcAfter i s' = pcAfter i s := by
  cases i with
  | jmpr b => simp [pcAfter, State.addrB, h.regB rfl]
  | jmp addr => rfl
  | jc addr | ja addr | je addr | jz addr | jca addr | jce addr | jcz addr | jae addr | jaz addr | jez addr
  | jcae addr | jcaz addr | jcez addr | jaez addr | jcaez addr =>
    simp [pcAfter, condJump, hpc, hflags rfl]
  | _ => simp [pcAfter, condJump, hpc]

/-- Two states that `i` reads alike, with the same pc, flags and fault mark, go on to states that differ at most in
their registers' contents and written marks. -/
theorem nextState_congr (h : ReadsAlike i s s') (hpc : s'.pc = s.pc) (hflags : s'.flags = s.flags)
    (hfault : s'.fault = s.fault) :
    nextState i s' =
      { nextState i s with regs := setDest i s'.regs (destValue i s), written := setDest i s'.written true } := by
  have hf : flagsAfter i s' = flagsAfter i s := by
    rw [h.flagsAfter_congr]
    split
    · rfl
    · rw [flagsAfter_of_keeps s (Bool.eq_false_of_not_eq_true ‹_›), hflags]
  simp only [nextState, h.destValue_congr, h.memAfter_congr, h.traceAfter_congr, h.pcAfter_congr hpc fun _ => hflags,
    hf, hfault, h.draws]

end ReadsAlike

end Sys2Proof.Machine
end

section
/-! Statements that compare two executions: what an instruction reads (10_state.md R12, R13, R14, R19). -/

namespace Sys2Proof.Machine

/-- The outcomes of two runs that started in states that differ at most in unwritten contents. -/
def AlikeOutcomes : Result → Result → Prop
  | .next t, .next t' => SameUpToUnwritten t t'
  | .fault f, .fault f' => f = f'
  | .refused r, .refused r' => r = r'
  | _, _ => False

namespace SameUpToUnwritten

variable {s s' : State}

/-- No instruction tells the two states apart: a read of an unwritten register is a draw (10_state.md R13). -/
theorem readsAlike (h : SameUpToUnwritten s s') (i : Instr) : ReadsAlike i s s' := by
  obtain ⟨heq, hregs⟩ := h
  rw [heq]
  exact ⟨fun pos r _ => readReg_congr pos rfl (hregs r) rfl, rfl, rfl, rfl⟩

theorem nextState_alike (h : SameUpToUnwritten s s') (i : Instr) :
    SameUpToUnwritten (nextState i s) (nextState i s') := by
  have hr := h.readsAlike i
  obtain ⟨heq, hregs⟩ := h
  rw [hr.nextState_congr (by rw [heq]) (by rw [heq]) (by rw [heq])]
  constructor
  · rw [heq]
    rfl
  · intro r hw
    simp only [nextState, get_setDest] at hw ⊢
    split
    · rfl
    · rw [if_neg ‹_›] at hw
      exact hregs r hw

theorem exec_alike (h : SameUpToUnwritten s s') (i : Instr) : AlikeOutcomes (exec i s) (exec i s') := by
  cases i with
  | reserved50 addr =>
    rw [h.1]
    rfl
  | _ =>
    rw [exec_of_wellFormed s rfl, exec_of_wellFormed s' rfl]
    exact h.nextState_alike _

theorem step_alike (h : SameUpToUnwritten s s') : AlikeOutcomes (step s) (step s') := by
  have hfetch : s'.fetchInstr = s.fetchInstr := by
    rw [h.1]
    rfl
  have hfault : s'.fault = s.fault := by rw [h.1]
  cases hf : s.fault with
  | some f =>
    rw [step_of_fault hf, step_of_fault (hfault.trans hf)]
    rfl
  | none =>
    rw [step_of_running hf, step_of_running (hfault.trans hf), hfetch]
    exact h.exec_alike _

theorem run_alike (h : SameUpToUnwritten s s') (k : Nat) : AlikeOutcomes (run k s) (run k s') := by
  induction k generalizing s s' with
  | zero => exact h
  | succ k ih =>
    have hstep := h.step_alike
    rw [run_succ, run_succ]
    generalize step s = o at hstep ⊢
    generalize step s' = o' at hstep ⊢
    match o, o', hstep with
    | .next u, .next u', hu => exact ih hu
    | .fault f, .fault f', hf => exact hf
    | .refused r, .refused r', hr => exact hr

end SameUpToUnwritten

/-- Settles O38: the relation is kept by every step, since no instruction reads what an unwritten register holds. -/
theorem unwrittenContentsAreNeverSeen : Obligations.UnwrittenContentsAreNeverSeen := by
  intro k s s' h
  have hrun := h.run_alike k
  constructor
  · intro t ht
    rw [ht] at hrun
    match hr : run k s' with
    | .next t' => exact ⟨t', rfl, by rwa [hr] at hrun⟩
    | .fault f | .refused r => rw [hr] at hrun; exact hrun.elim
  · intro f hf
    rw [hf] at hrun
    match hr : run k s' with
    | .fault f' => rw [hr] at hrun; exact congrArg _ (Eq.symm hrun)
    | .next t' | .refused r => rw [hr] at hrun; exact hrun.elim

/-- Settles O36, from the one place an instruction writes and the congruence of what it reads. -/
theorem registerReadsAndWrites : Obligations.RegisterReadsAndWrites := by
  intro i s t h
  obtain ⟨hwf, rfl⟩ := exec_next h
  refine ⟨fun r hr => ?_, fun r hr => ?_, fun regs written hread => ?_⟩
  · exact ⟨by simp [nextState, hr], by simp [nextState, hr]⟩
  · simp [nextState, hr]
  · have halike : ReadsAlike i s { s with regs := regs, written := written } :=
      ⟨fun pos r hr => readReg_congr pos (hread r hr).2 (fun _ => (hread r hr).1) rfl, rfl, rfl, rfl⟩
    refine ⟨_, exec_of_wellFormed _ hwf, ?_, fun r hr => ?_⟩
    · rw [halike.nextState_congr rfl rfl rfl]
    · simp [nextState, hr, halike.destValue_congr]

/-- Settles O39: flags and pc are nothing an instruction reads but for a conditional jump's test. -/
theorem flagsAndPcNeverReachRegisters : Obligations.FlagsAndPcNeverReachRegisters := by
  intro i s t f p h
  obtain ⟨hwf, rfl⟩ := exec_next h
  have halike : ReadsAlike i s { s with flags := f, pc := p } := ⟨fun _ _ _ => rfl, rfl, rfl, rfl⟩
  refine ⟨_, exec_of_wellFormed _ hwf, ?_, halike.flagsAfter_congr, fun hcond hp => ?_⟩
  · simp only [nextState, halike.destValue_congr, halike.memAfter_congr, halike.traceAfter_congr]
  · exact halike.pcAfter_congr hp fun hcond' => by rw [hcond] at hcond'; cases hcond'

end Sys2Proof.Machine
end

section
/-! The frame of every instruction and of every run (10_state.md R13, R15, R16, R18, 20_memory.md R33, R36, R37). -/

namespace Sys2Proof.Machine

/-- A step changes no byte from address 256 on: what it stores goes to page zero. -/
theorem step_byteAt_of_ge {s t : State} (h : step s = .next t) {x : Nat} (hx : 256 ≤ x) :
    t.mem.byteAt x = s.mem.byteAt x := by
  rw [step_next_eq h]
  exact byteAt_memAfter fun addr ha => by have := storeAddr_lt ha; omega

/-- Settles O45: every step keeps the bytes from address 256 on, so every run does. -/
theorem storesStayInPageZero : Obligations.StoresStayInPageZero := by
  intro k s t h x hx
  refine run_induct (P := fun s t => t.mem.byteAt x = s.mem.byteAt x) (fun _ => rfl) (fun s u t hu ht => ?_) h
  exact ht.trans (step_byteAt_of_ge hu hx)

/-- A register that an instruction has written stays written. -/
theorem step_keeps_written {s t : State} (h : step s = .next t) {r : Reg} (hr : s.written.get r = true) :
    t.written.get r = true := by
  rw [step_next_eq h]
  simp [nextState, hr]

/-- Settles O37: the two answers of a register read, and the written marks along a run. -/
theorem unwrittenRegisterReadsAreDraws : Obligations.UnwrittenRegisterReadsAreDraws := by
  refine ⟨fun _ pos _ h => readReg_of_unwritten pos h, fun _ pos _ h => readReg_of_written pos h, ?_⟩
  intro k s t h r hr
  exact run_invariant (P := fun s => s.written.get r = true) (fun _ _ hs hstep => step_keeps_written hstep hs) hr h

/-- The opcode byte of DTA with zeros in its ignored bits (30_encoding.md R53, R58). -/
theorem decodeOp_dta {op : Byte} {b : Reg} (h : op.toNat = 0x20 + b.bits.toNat) (second third : Byte) :
    decodeOp op second third = .dta b second := by
  have hop : op = BitVec.ofNat 8 (0x20 + b.bits.toNat) := by rw [← h, BitVec.ofNat_toNat, BitVec.setWidth_eq]
  rw [hop]
  cases b <;> rfl

/-- Settles O41: the fall-through address is a code address, and both bytes of a DTA at 0xFFFF are fetched modulo
2^16. -/
theorem pcArithmeticWraps : Obligations.PcArithmeticWraps := by
  refine ⟨fun i s t hjump h => ?_, codeAddr_toNat, fun s b op data hfault hpc hop h0 h1 => ?_⟩
  · obtain ⟨-, rfl⟩ := exec_next h
    rw [← codeAddr_toNat]
    exact congrArg BitVec.toNat (pcAfter_of_not_jump s hjump)
  · have hfetch : s.fetchInstr = .dta b data := by
      have hbyte0 : s.fetchByte 0 = op := by simp [fetchByte_eq, hpc, h0]
      have hbyte1 : s.fetchByte 1 = data := by simp [fetchByte_eq, hpc, h1]
      rw [State.fetchInstr, decodeStream, hbyte0, hbyte1]
      exact decodeOp_dta hop data _
    rw [step_of_running hfault, hfetch, exec_dta]
    simp [State.writeReg, State.advance, State.goTo, Claims.wroteReg, hpc]

/-- Settles O42, field by field of the next state. -/
theorem frameOfEveryInstruction : Obligations.FrameOfEveryInstruction := by
  intro i s t h
  obtain ⟨-, rfl⟩ := exec_next h
  refine ⟨fun addr ha x hx => ?_, fun hnone x => ?_, flagsAfter_of_keeps s, traceAfter_eq i s, rfl, rfl⟩
  · refine byteAt_memAfter fun addr' ha' => ?_
    rw [ha] at ha'
    cases ha'
    exact hx
  · refine byteAt_memAfter fun addr' ha' => ?_
    rw [hnone] at ha'
    cases ha'

end Sys2Proof.Machine
end

section
/-! Reset and the loading of an image (10_state.md R25, 70_reset_and_hazards.md R141). -/

namespace Sys2Proof.Machine

/-- Loading an image in two parts, the first part first. -/
theorem loadImage_append (s : State) (first later : List (Addr × Byte)) :
    s.loadImage (first ++ later) = (s.loadImage first).loadImage later := by
  induction first generalizing s with
  | nil => rfl
  | cons cell rest ih => exact ih _

/-- An address that the image does not cover keeps what memory held there. -/
theorem byteAt_loadImage_of_not_mem {s : State} {image : List (Addr × Byte)} {addr : Addr}
    (h : ∀ v, (addr, v) ∉ image) : (s.loadImage image).mem.byteAt addr.toNat = s.mem.byteAt addr.toNat := by
  induction image generalizing s with
  | nil => rfl
  | cons cell rest ih =>
    obtain ⟨a, w⟩ := cell
    have hne : addr.toNat ≠ a.toNat := fun heq => h w (by simp [BitVec.eq_of_toNat_eq heq])
    have hrest : ∀ v, (addr, v) ∉ rest := fun v hv => h v (List.mem_cons_of_mem _ hv)
    rw [State.loadImage, ih hrest, memWrite_mem, byteAt_store, if_neg hne]

/-- An address that the image covers holds the last byte given for it (log 10). -/
theorem byteAt_loadImage_of_last {s : State} {first later : List (Addr × Byte)} {addr : Addr} {v : Byte}
    (h : ∀ w, (addr, w) ∉ later) :
    (s.loadImage (first ++ (addr, v) :: later)).mem.byteAt addr.toNat = some v := by
  rw [loadImage_append, State.loadImage, byteAt_loadImage_of_not_mem h, memWrite_mem, byteAt_store, if_pos rfl]

/-- Settles O48, from the laws of loading. -/
theorem resetMeetsInvariant : Obligations.ResetMeetsInvariant := by
  intro image
  refine ⟨wf_loadImage image wf_reset, ?_⟩
  rw [loadImage_eq]
  rfl

/-- Settles O49: nothing is written at reset, and a load writes the image's bytes alone. -/
theorem resetLeavesRegistersUnspecified : Obligations.ResetLeavesRegistersUnspecified := by
  refine ⟨rfl, rfl, fun pos r => ?_, fun image addr access h => ?_, fun first later addr v access h => ?_,
    loadImage_eq State.reset⟩
  · exact readReg_of_unwritten pos (by cases r <;> rfl)
  · rw [memRead_eq, byteAt_loadImage_of_not_mem h, loadImage_eq]
    rfl
  · exact memRead_of_byteAt access (byteAt_loadImage_of_last h)

end Sys2Proof.Machine
end

section
/-! Every register the table lists as read matters (10_state.md R12), but for the one that XOR Rn, Rn and CMP Rn, Rn
read (40_alu.md R78, R79). -/

namespace Sys2Proof.Machine

/-- A state with every register written and holding 1, and with different bytes listed at addresses 1 and 2. -/
def probe : State where
  regs := ⟨1#8, 1#8, 1#8, 1#8⟩
  written := ⟨true, true, true, true⟩
  pc := 0x0010#16
  flags := clearFlags
  mem := [(1, 0x00#8), (2, 0x01#8)]
  trace := []
  fault := none
  draws := 0

/-- The probe with 2 in register `r`. -/
def probeWith (r : Reg) : State := { probe with regs := probe.regs.set r 2#8 }

theorem readReg_probe (pos : OperandPos) (q : Reg) : probe.readReg pos q = 1#8 := by
  cases q <;> rfl

theorem readReg_probeWith (r : Reg) (pos : OperandPos) (q : Reg) :
    (probeWith r).readReg pos q = if q = r then 2#8 else 1#8 := by
  cases r <;> cases q <;> rfl

/-- What a function of one operand must do for the probes to tell that its register matters. -/
theorem probes_differ_unary {α : Type} (op : Byte → α) {pos : OperandPos} {a r : Reg} (hr : r ∈ [a])
    (h : op 2#8 ≠ op 1#8) : op ((probeWith r).readReg pos a) ≠ op (probe.readReg pos a) := by
  obtain rfl := List.mem_singleton.mp hr
  rwa [readReg_probe, readReg_probeWith, if_pos rfl]

/-- What a function of two operands must do for the probes to tell that both registers matter. -/
theorem probes_differ_binary {α : Type} (op : Byte → Byte → α) {a b r : Reg} (hr : r ∈ [a, b])
    (hA : op 2#8 1#8 ≠ op 1#8 1#8) (hB : op 1#8 2#8 ≠ op 1#8 1#8) (hAB : a = b → op 2#8 2#8 ≠ op 1#8 1#8) :
    op ((probeWith r).regA a) ((probeWith r).regB b) ≠ op (probe.regA a) (probe.regB b) := by
  simp only [State.regA, State.regB, readReg_probe, readReg_probeWith]
  by_cases ha : a = r <;> by_cases hb : b = r
  · simpa only [ha, hb, if_true] using hAB (ha.trans hb.symm)
  · simpa only [ha, hb, if_true, if_false] using hA
  · simpa only [ha, hb, if_true, if_false] using hB
  · rcases List.mem_pair.mp hr with rfl | rfl
    · exact absurd rfl ha
    · exact absurd rfl hb

/-- In some state where `r` is written, another value of `r` changes something that `i` does. -/
def HasInfluence (i : Instr) (r : Reg) : Prop :=
  ∃ (s : State) (v : Byte) (t t' : State), s.written.get r = true ∧ exec i s = .next t ∧
    exec i { s with regs := s.regs.set r v } = .next t' ∧
    ((∃ q, destReg i = some q ∧ t'.regs.get q ≠ t.regs.get q) ∨ t'.flags ≠ t.flags ∨ t'.mem ≠ t.mem ∨
      t'.pc ≠ t.pc ∨ t'.trace ≠ t.trace)

/-- An effect in which the two probes differ shows the influence. -/
theorem hasInfluence_of_probes {i : Instr} {r : Reg} (hwf : i.wellFormed = true)
    (h : (∃ q, destReg i = some q ∧ destValue i (probeWith r) ≠ destValue i probe) ∨
      flagsAfter i (probeWith r) ≠ flagsAfter i probe ∨ memAfter i (probeWith r) ≠ memAfter i probe ∨
      pcAfter i (probeWith r) ≠ pcAfter i probe ∨ traceAfter i (probeWith r) ≠ traceAfter i probe) :
    HasInfluence i r := by
  refine ⟨probe, 2#8, _, _, by cases r <;> rfl, exec_of_wellFormed _ hwf, exec_of_wellFormed (probeWith r) hwf, ?_⟩
  refine h.imp_left ?_
  rintro ⟨q, hq, hne⟩
  exact ⟨q, hq, by simpa [nextState, hq] using hne⟩

/-- One channel for each instruction that reads a register: its result, CMP's E flag, ST's memory, JMPR's target, an
output's event. -/
theorem hasInfluence_of_mem_readRegs {i : Instr} {r : Reg} (hr : r ∈ readRegs i)
    (hne : ∀ q, i ≠ .xor q q ∧ i ≠ .cmp q q) : HasInfluence i r := by
  have hwf : i.wellFormed = true := by
    cases i with
    | reserved50 addr => cases hr
    | _ => rfl
  refine hasInfluence_of_probes hwf ?_
  cases i with
  | add a b => exact .inl ⟨b, rfl, probes_differ_binary addResult hr (by decide) (by decide) fun _ => by decide⟩
  | and a b => exact .inl ⟨b, rfl, probes_differ_binary (· &&& ·) hr (by decide) (by decide) fun _ => by decide⟩
  | or a b => exact .inl ⟨b, rfl, probes_differ_binary (· ||| ·) hr (by decide) (by decide) fun _ => by decide⟩
  | xor a b =>
    have hab : a ≠ b := fun h => (hne b).1 (h ▸ rfl)
    exact .inl ⟨b, rfl, probes_differ_binary (· ^^^ ·) hr (by decide) (by decide) fun h => absurd h hab⟩
  | cmp a b =>
    have hab : a ≠ b := fun h => (hne b).2 (h ▸ rfl)
    have he : ∀ {x y : Byte}, (x == y) = false → cmpFlags 0 x y ≠ cmpFlags 0 1#8 1#8 := fun hxy h =>
      Bool.false_ne_true (hxy.symm.trans (congrArg Flags.e h))
    exact .inr (.inl (probes_differ_binary (cmpFlags 0) hr (he rfl) (he rfl) fun h => absurd h hab))
  | st a b =>
    exact .inr (.inr (.inl (probes_differ_binary (fun x y => probe.mem.store (zext16 x).toNat y) hr (by decide)
      (by decide) fun _ => by decide)))
  | shl a b => exact .inl ⟨b, rfl, probes_differ_unary shlResult hr (by decide)⟩
  | shr a b => exact .inl ⟨b, rfl, probes_differ_unary shrResult hr (by decide)⟩
  | not a b => exact .inl ⟨b, rfl, probes_differ_unary (~~~ ·) hr (by decide)⟩
  | ld a b => exact .inl ⟨b, rfl, probes_differ_unary (fun x => probe.memRead .load (zext16 x)) hr (by decide)⟩
  | jmpr b => exact .inr (.inr (.inr (.inl (probes_differ_unary zext16 hr (by decide)))))
  | outd b =>
    exact .inr (.inr (.inr (.inr (probes_differ_unary (fun x => [IoEvent.output .data x]) hr (by decide)))))
  | outa b =>
    exact .inr (.inr (.inr (.inr (probes_differ_unary (fun x => [IoEvent.output .addr x]) hr (by decide)))))
  | _ => cases hr

theorem perReg_set_set {α : Type} (p : PerReg α) (r : Reg) (v w : α) : (p.set r v).set r w = p.set r w := by
  cases r <;> rfl

/-- XOR Rn, Rn with a written Rn gives 0 whatever Rn holds (40_alu.md R78). -/
theorem exec_xor_self {s : State} {q : Reg} (h : s.written.get q = true) :
    exec (.xor q q) s = s.finishLogic q 0#8 := by
  simp [State.regA, State.regB, h]

/-- CMP Rn, Rn with a written Rn gives E and not A whatever Rn holds (40_alu.md R79). -/
theorem exec_cmp_self {s : State} {q : Reg} (h : s.written.get q = true) :
    exec (.cmp q q) s = .next ((s.setFlags (cmpFlags s.draws 0#8 0#8)).advance 1) := by
  simp [State.regA, State.regB, h, cmpFlags, BitVec.ult]

/-- Settles O52: each listed read by a pair of probes; XOR and CMP of one register by their results. -/
theorem listedReadsHaveInfluenceExceptXorCmpOfOneRegister :
    Obligations.ListedReadsHaveInfluenceExceptXorCmpOfOneRegister := by
  refine ⟨fun i r hr hne => hasInfluence_of_mem_readRegs hr hne, fun q v s hw => ?_⟩
  have hw' : { s with regs := s.regs.set q v }.written.get q = true := hw
  refine ⟨⟨_, exec_xor_self hw, ?_⟩, ⟨_, exec_cmp_self hw, exec_cmp_self hw'⟩⟩
  rw [exec_xor_self hw']
  simp [State.finishLogic, State.finishAlu, State.writeReg, perReg_set_set]

end Sys2Proof.Machine
end

section
/-! The canonical form of memory (log 5): every step keeps it, and it makes memories that read alike equal. -/

namespace Sys2Proof.Machine

/-- Every instruction keeps the canonical form: an ST stores at an address of the 65536 (20_memory.md R30). -/
theorem wf_memAfter {s : State} (i : Instr) (h : s.mem.wf = true) : (memAfter i s).wf = true := by
  cases i with
  | st a b => exact wf_memWrite (s.addrA a) (s.regB b) h
  | _ => exact h

/-- Settles O47: a step answers `nextState`, whose memory is canonical and whose fault mark is the old one. -/
theorem stepKeepsInvariant : Obligations.StepKeepsInvariant := by
  intro s t hinv hstep
  obtain ⟨hwf, hfault⟩ := hinv
  rw [step_next_eq hstep]
  exact ⟨wf_memAfter _ hwf, hfault⟩

theorem wfFrom_cons_iff {low k : Nat} {v : Byte} {rest : Memory} :
    Memory.wfFrom low ((k, v) :: rest) = true ↔ low ≤ k ∧ k < 65536 ∧ rest.wfFrom (k + 1) = true := by
  simp [Memory.wfFrom, and_assoc]

theorem byteAt_cons_self (k : Nat) (v : Byte) (rest : Memory) : Memory.byteAt ((k, v) :: rest) k = some v :=
  if_pos rfl

theorem byteAt_cons_of_ne {k x : Nat} (h : x ≠ k) (v : Byte) (rest : Memory) :
    Memory.byteAt ((k, v) :: rest) x = rest.byteAt x :=
  if_neg h

/-- A memory whose addresses start at `low` lists nothing below it. -/
theorem byteAt_of_lt {low x : Nat} {m : Memory} (hm : m.wfFrom low = true) (hx : x < low) : m.byteAt x = none := by
  induction m generalizing low with
  | nil => rfl
  | cons cell rest ih =>
    obtain ⟨hlow, -, hrest⟩ := wfFrom_cons_iff.mp hm
    rw [byteAt_cons_of_ne (by omega)]
    exact ih hrest (by omega)

/-- The first address of a canonical memory is its least listed one. -/
theorem head_le_of_byteAt {low k x : Nat} {v w : Byte} {rest : Memory}
    (hm : Memory.wfFrom low ((k, v) :: rest) = true) (hx : Memory.byteAt ((k, v) :: rest) x = some w) : k ≤ x := by
  obtain ⟨-, hk, hrest⟩ := wfFrom_cons_iff.mp hm
  by_contra hlt
  rw [byteAt_of_lt (wfFrom_cons_iff.mpr ⟨le_refl k, hk, hrest⟩) (by omega)] at hx
  cases hx

/-- Canonical memories that read alike have the same first address and byte, and then the same rest. -/
theorem eq_of_byteAt_eq {low : Nat} {m m' : Memory} (hm : m.wfFrom low = true) (hm' : m'.wfFrom low = true)
    (h : ∀ x, x < 65536 → m.byteAt x = m'.byteAt x) : m = m' := by
  induction m generalizing low m' with
  | nil =>
    cases m' with
    | nil => rfl
    | cons cell' rest' =>
      obtain ⟨-, hk', -⟩ := wfFrom_cons_iff.mp hm'
      have hhead := h _ hk'
      rw [byteAt_cons_self] at hhead
      cases hhead
  | cons cell rest ih =>
    obtain ⟨k, v⟩ := cell
    obtain ⟨-, hk, hrest⟩ := wfFrom_cons_iff.mp hm
    have hread := (h k hk).symm.trans (byteAt_cons_self k v rest)
    cases m' with
    | nil => cases hread
    | cons cell' rest' =>
      obtain ⟨k', v'⟩ := cell'
      obtain ⟨-, hk', hrest'⟩ := wfFrom_cons_iff.mp hm'
      have hread' := (h k' hk').trans (byteAt_cons_self k' v' rest')
      obtain rfl : k = k' := le_antisymm (head_le_of_byteAt hm hread') (head_le_of_byteAt hm' hread)
      obtain rfl : v' = v := Option.some.inj ((byteAt_cons_self k v' rest').symm.trans hread)
      have htail : ∀ x, x < 65536 → Memory.byteAt rest x = Memory.byteAt rest' x := by
        intro x hx
        by_cases hxk : x = k
        · rw [hxk, byteAt_of_lt hrest k.lt_succ_self, byteAt_of_lt hrest' k.lt_succ_self]
        · simpa only [byteAt_cons_of_ne hxk] using h x hx
      rw [ih hrest hrest' htail]

/-- Settles O46, by induction on the two lists. -/
theorem canonicalMemoriesAreEqual : Obligations.CanonicalMemoriesAreEqual :=
  fun _ _ hm hm' h => eq_of_byteAt_eq hm hm' h

end Sys2Proof.Machine
end

section
/-! What a store leaves for later fetches and loads to read (20_memory.md R31, R39, R42). -/

namespace Sys2Proof.Machine

/-- Settles O9: the fetched stream is the decoder's, byte by byte. -/
theorem fetchWrapsAndDrawsUnwrittenBytes : Obligations.FetchWrapsAndDrawsUnwrittenBytes := by
  intro s hfault
  rw [step_of_running hfault, State.fetchInstr, funext (fetchByte_eq s)]

/-- LD and ST address the byte that RegA numbers (10_state.md R15). -/
@[simp] theorem addrA_toNat (s : State) (a : Reg) : (s.addrA a).toNat = (s.regA a).toNat := zext16_toNat _

/-- In the next `k` steps from `s`, no instruction stores at `addr`. -/
def NoStoreTo (addr : Addr) (k : Nat) (s : State) : Prop :=
  ∀ j v, j < k → run j s = .next v → storeAddr v.fetchInstr v ≠ some addr

/-- What holds of `k + 1` steps holds of the first of them and of the `k` after it. -/
theorem NoStoreTo.of_succ {addr : Addr} {k : Nat} {s u : State} (h : NoStoreTo addr (k + 1) s)
    (hstep : step s = .next u) : storeAddr s.fetchInstr s ≠ some addr ∧ NoStoreTo addr k u := by
  refine ⟨h 0 s k.succ_pos rfl, fun j v hj hv => h (j + 1) v (Nat.succ_lt_succ hj) ?_⟩
  rw [run_succ, hstep]
  exact hv

/-- A step that does not store at an address keeps the byte there (20_memory.md R33, R36). -/
theorem step_byteAt_of_storeAddr_ne {addr : Addr} {s t : State} (h : step s = .next t)
    (hne : storeAddr s.fetchInstr s ≠ some addr) : t.mem.byteAt addr.toNat = s.mem.byteAt addr.toNat := by
  rw [step_next_eq h]
  refine byteAt_memAfter fun addr' ha' heq => hne ?_
  rw [ha', BitVec.eq_of_toNat_eq heq]

/-- A run in which no instruction stores at an address keeps the byte there (20_memory.md R39). -/
theorem run_byteAt_of_noStoreTo {addr : Addr} {k : Nat} {s t : State} (h : run k s = .next t)
    (hno : NoStoreTo addr k s) : t.mem.byteAt addr.toNat = s.mem.byteAt addr.toNat := by
  induction k generalizing s with
  | zero => cases h; rfl
  | succ k ih =>
    obtain ⟨u, hstep, hrun⟩ := run_succ_next h
    obtain ⟨hne, hno'⟩ := hno.of_succ hstep
    exact (ih hrun hno').trans (step_byteAt_of_storeAddr_ne hstep hne)

theorem exec_st_next {s t : State} {a b : Reg} (h : exec (.st a b) s = .next t) :
    t = (s.memWrite (s.addrA a) (s.regB b)).advance 1 := by
  cases h
  rfl

/-- The byte an ST stores stays listed at its address until another store there. -/
theorem byteAt_of_st_run {s t u : State} {a b : Reg} {k : Nat} (hst : exec (.st a b) s = .next t)
    (hrun : run k t = .next u) (hno : NoStoreTo (s.addrA a) k t) :
    u.mem.byteAt (s.regA a).toNat = some (s.regB b) := by
  have hkept := run_byteAt_of_noStoreTo hrun hno
  rw [exec_st_next hst] at hkept
  simpa using hkept

/-- Settles O43: after the run the byte is still listed where the fetch reads; right after the ST every other address
reads as before it. -/
theorem storeIsSeenByLaterFetches : Obligations.StoreIsSeenByLaterFetches := by
  refine ⟨fun a b k n s t u hst hrun hno hk => ?_, fun a b k s t hst hk => ?_⟩
  · rw [fetchByte_eq, hk, byteAt_of_st_run hst hrun hno]
    rfl
  · have hpc : (t.pc.toNat + k) % 65536 = (s.pc.toNat + 1 + k) % 65536 := by
      simp [exec_st_next hst, BitVec.toNat_add]
    have hmem : t.mem = s.mem.store (s.regA a).toNat (s.regB b) := by simp [exec_st_next hst]
    rw [fetchByte_eq, hpc, hmem, byteAt_store, if_neg hk]

/-- LD in every state, by what memory lists at the address (41_general.md R80). -/
theorem exec_ld_eq_wroteReg (c d : Reg) (s : State) :
    exec (.ld c d) s = .next (Claims.wroteReg s d
      ((s.mem.byteAt (s.regA c).toNat).getD (Config.freeMemory s.draws .load)) s.flags 1#16) := by
  rw [exec_ld, memRead_eq, addrA_toNat]
  rfl

/-- Settles O44: LD reads what the run has kept at its address. -/
theorem loadReturnsLatestStore : Obligations.LoadReturnsLatestStore := by
  refine ⟨fun a b c d k s t u hst hrun hno haddr => ?_, fun c d k s u hrun hno => ?_⟩
  · rw [exec_ld_eq_wroteReg, haddr, byteAt_of_st_run hst hrun hno]
    rfl
  · have hkept := run_byteAt_of_noStoreTo hrun hno
    rw [addrA_toNat] at hkept
    rw [exec_ld_eq_wroteReg, hkept]

end Sys2Proof.Machine
end

section
/-! The fields of an opcode byte (30_encoding.md R50, R52, R53): its high nibble, its bit 7, and RegB, read off a word
that is put together from its fields. -/

namespace Sys2Proof

theorem highNibble_toNat (op : Byte) : (highNibble op).toNat = op.toNat / 16 := by
  have hlt := op.isLt
  simp only [highNibble, BitVec.extractLsb'_toNat, Nat.shiftRight_eq_div_pow]
  omega

/-- Bit 7 of the opcode byte is set for the ALU's high nibbles, 8 to 15 (R62). -/
theorem eight_le_highNibble_of_bit7 {op : Byte} (h : op.getLsbD 7 = true) : 8 ≤ (highNibble op).toNat := by
  have h128 : 2 ^ 7 ≤ op.toNat := of_decide_eq_true ((BitVec.msb_eq_decide op).symm.trans h)
  rw [highNibble_toNat]
  omega

/-- A high nibble below 8 leaves bit 7 of the opcode byte clear. -/
theorem bit7_of_highNibble_lt {op : Byte} (h : (highNibble op).toNat < 8) : op[7] = false :=
  Bool.eq_false_of_not_eq_true fun h7 => Nat.not_lt.mpr (eight_le_highNibble_of_bit7 h7) h

/-- An opcode byte is its two nibbles (R50). -/
theorem eq_append_nibbles (op : Byte) : op = (highNibble op ++ lowNibble op : BitVec 8) :=
  (BitVec.extractLsb'_append_extractLsb' (w := 4) (len := 4) (x := op)).symm

@[simp] theorem highNibble_append (high low : BitVec 4) : highNibble (high ++ low : BitVec 8) = high :=
  BitVec.extractLsb'_append_eq_left

@[simp] theorem highNibble_append_fields (high : BitVec 4) (v w : BitVec 2) :
    highNibble (high ++ v ++ w : BitVec 8) = high := by
  rw [BitVec.append_assoc]
  exact highNibble_append high (v ++ w)

@[simp] theorem fieldB_append_bits (v : BitVec 6) (b : Reg) : fieldB (v ++ b.bits : BitVec 8) = b :=
  (congrArg Reg.ofBits BitVec.extractLsb'_append_eq_right).trans (ofBits_bits b)

end Sys2Proof
end

section
/-! The encoder and the decoder against each other: every encoding decodes to its instruction (30_encoding.md R52 to
R54, R57, R62), and the length of what is decoded (R51). -/

namespace Sys2Proof

/-! ## Lengths -/

/-- The length by the high nibble, as one condition (R51). -/
theorem instrLength_eq (op : Byte) : instrLength op =
    if (highNibble op).toNat = 2 then 2
    else if (highNibble op).toNat = 4 ∨ (highNibble op).toNat = 5 then 3 else 1 := by
  unfold instrLength
  split <;> simp_all

@[simp] theorem length_decodeAlu (aluOp : BitVec 3) (a b : Reg) : (decodeAlu aluOp a b).length = 1 := by
  unfold decodeAlu
  split <;> rfl

@[simp] theorem length_decodeCond (cccc : BitVec 4) (addr : Addr) : (decodeCond cccc addr).length = 3 := by
  unfold decodeCond
  split <;> rfl

@[simp] theorem length_decodeIo (selector : BitVec 2) (b : Reg) : (decodeIo selector b).length = 1 := by
  unfold decodeIo
  split <;> rfl

/-- The decoded instruction has the length that its opcode byte announces (R51). -/
theorem length_decodeOp (op second third : Byte) : (decodeOp op second third).length = instrLength op := by
  rw [instrLength_eq]
  unfold decodeOp
  split
  · have hhigh := eight_le_highNibble_of_bit7 ‹_›
    rw [length_decodeAlu, if_neg (by omega), if_neg (by omega)]
  · split
    case h_6 hhigh => simp [hhigh]
    case h_8 => simp_all
    all_goals simp [*, Instr.length]

/-- The encoder writes as many bytes as the instruction is long (R51). -/
theorem length_encode (i : Instr) : (encode i).length = i.length := by
  cases i <;> rfl

/-! ## Round trip -/

/-- Format J (R54): the address comes back from its two bytes. -/
theorem decodeStream_encodeJ {high low : BitVec 4} {i : Addr → Instr}
    (h : ∀ second third, decodeOp (high ++ low : BitVec 8) second third = i (addr16 second third)) (addr : Addr) :
    decodeStream (fun k => (encodeJ high low addr).getD k 0#8) = i addr :=
  (h _ _).trans (congrArg i (addr16_extract addr))

/-- The decoder reads an instruction back from its own bytes, one format at a time: the opcode byte gives the registers
(R52, R53), an immediate comes back as it is (R53, R54). -/
theorem decodeStream_encode (i : Instr) : decodeStream (fun k => (encode i).getD k 0#8) = i := by
  cases i with
  | add a b | shl a b | shr a b | not a b | and a b | or a b | xor a b | cmp a b | ld a b | st a b =>
    cases a <;> cases b <;> rfl
  | dta b data =>
    show decodeOp (opcodeR 0b0010#4 0b00#2 b) data 0#8 = .dta b data
    cases b <;> rfl
  | jmpr b | ind b | ina b | outd b | outa b => cases b <;> rfl
  | clf => rfl
  | jmp addr | reserved50 addr | jc addr | ja addr | je addr | jz addr | jca addr | jce addr | jcz addr | jae addr
  | jaz addr | jez addr | jcae addr | jcaz addr | jcez addr | jaez addr | jcaez addr =>
    exact decodeStream_encodeJ (fun _ _ => rfl) addr

/-- The first byte of an encoding announces how many bytes the encoder writes (R51). -/
theorem instrLength_encode (i : Instr) : instrLength ((encode i).getD 0 0#8) = (encode i).length := by
  calc instrLength ((encode i).getD 0 0#8)
      = (decodeStream fun k => (encode i).getD k 0#8).length := (length_decodeOp _ _ _).symm
    _ = i.length := by rw [decodeStream_encode]
    _ = (encode i).length := (length_encode i).symm

/-- As many bytes as the first of them announces are decoded from themselves alone, and the bytes after them are
left. -/
theorem decode_append {bytes : List Byte} (h : instrLength (bytes.getD 0 0#8) = bytes.length) (rest : List Byte) :
    decode (bytes ++ rest) = .ok (decodeStream (fun k => bytes.getD k 0#8), rest) := by
  cases bytes with
  | nil => exact absurd h (by decide)
  | cons op tail =>
    have hlen : instrLength op = (op :: tail).length := h
    have hstream : decodeStream (fun k => (op :: (tail ++ rest)).getD k 0#8) =
        decodeStream (fun k => (op :: tail).getD k 0#8) :=
      decodeStream_congr fun k hk => List.getD_append (op :: tail) rest 0#8 k (hlen ▸ hk)
    rw [List.cons_append, decode_of_length_le (by simp [hlen]), hstream, hlen, ← List.cons_append, List.drop_left]

/-- Settles O2: an encoding has the length its first byte announces, and is read back from its own bytes. -/
theorem decodeEncodeRoundTrip : Obligations.DecodeEncodeRoundTrip := by
  intro i rest
  rw [decode_append (instrLength_encode i), decodeStream_encode]

/-- Settles O4: the high nibble is the opcode byte divided by 16, and the decoded instruction has the length
announced. -/
theorem instructionLengthByHighNibble : Obligations.InstructionLengthByHighNibble := by
  intro op rest
  have hdrop : (op :: rest).drop (instrLength op) = rest.drop (instrLength op - 1) := by
    obtain h1 | h1 | h1 := instrLength_cases op <;> rw [h1] <;> rfl
  refine ⟨by rw [instrLength_eq, highNibble_toNat], decode_of_length_lt, fun h => ?_⟩
  exact ⟨_, hdrop ▸ decode_of_length_le h, length_decodeOp _ _ _⟩

end Sys2Proof
end

section
/-! The opcode map (30_encoding.md R58, R59, R61): its rows, the one reserved byte, the names of the jumps. -/

namespace Sys2Proof

/-- A jump's mnemonic comes from its mask, not from its address. -/
theorem mnemonic_decodeCond (cccc : BitVec 4) (addr addr' : Addr) :
    (decodeCond cccc addr).mnemonic = (decodeCond cccc addr').mnemonic := by
  unfold decodeCond
  split <;> rfl

/-- A mnemonic comes from the opcode byte, not from the bytes after it. -/
theorem mnemonic_decodeOp (op second third second' third' : Byte) :
    (decodeOp op second third).mnemonic = (decodeOp op second' third').mnemonic := by
  unfold decodeOp
  split
  · rfl
  · split
    case h_6 => exact mnemonic_decodeCond _ _ _
    all_goals rfl

/-- The rows of the map that cover an opcode byte, against the decoder, for each of the 256 opcode bytes. -/
theorem opcodeTable_filter_covers : ∀ op : Byte,
    (opcodeTable.filter (·.covers op)).map OpcodeRow.mnemonic = [(decodeOp op 0x00#8 0x00#8).mnemonic] := by
  decide

/-- Settles O3: the bytes after the opcode byte play no part in the mnemonic, and each opcode byte has its row. -/
theorem opcodeTableCoversEachByteOnce : Obligations.OpcodeTableCoversEachByteOnce := by
  intro byte
  rw [opcodeTable_filter_covers, decodeStream, mnemonic_decodeOp (byte 0) (byte 1) (byte 2)]

@[simp] theorem wellFormed_decodeAlu (aluOp : BitVec 3) (a b : Reg) : (decodeAlu aluOp a b).wellFormed = true := by
  unfold decodeAlu
  split <;> rfl

@[simp] theorem wellFormed_decodeIo (selector : BitVec 2) (b : Reg) : (decodeIo selector b).wellFormed = true := by
  unfold decodeIo
  split <;> rfl

/-- A jump that tests some flag is an instruction (42_conditional_jumps.md R106). -/
theorem wellFormed_decodeCond {cccc : BitVec 4} (h : cccc ≠ 0#4) (addr : Addr) :
    (decodeCond cccc addr).wellFormed = true := by
  unfold decodeCond
  split
  case h_1 hzero => exact absurd (BitVec.eq_of_toNat_eq hzero) h
  all_goals rfl

/-- Every other opcode byte is an instruction: one with high nibble 5 tests some flag. -/
theorem wellFormed_decodeOp {op : Byte} (h : op ≠ 0x50#8) (second third : Byte) :
    (decodeOp op second third).wellFormed = true := by
  unfold decodeOp
  split
  · exact wellFormed_decodeAlu _ _ _
  · split
    case h_6 hhigh =>
      refine wellFormed_decodeCond (fun hlow => h ?_) _
      rw [eq_append_nibbles op, hlow, BitVec.eq_of_toNat_eq (y := 5#4) hhigh]
      rfl
    case h_8 => exact wellFormed_decodeIo _ _
    all_goals rfl

/-- Settles O6: 0x50 decodes to the reserved encoding, every other opcode byte to an instruction. -/
theorem onlyByte50IsReserved : Obligations.OnlyByte50IsReserved := by
  intro byte
  constructor
  · intro h
    by_contra hne
    rw [decodeStream, wellFormed_decodeOp hne] at h
    cases h
  · intro h
    rw [decodeStream, h]
    rfl

/-- Settles O7: the mnemonic does not depend on the address, and each of the 16 masks is named as R61 says. -/
theorem jumpMnemonicNamesItsFlags : Obligations.JumpMnemonicNamesItsFlags := by
  intro cccc addr
  rw [mnemonic_decodeCond cccc addr 0x0000#16]
  revert cccc
  decide

end Sys2Proof
end

section
/-! The instructions whose opcode byte has ignored bits (30_encoding.md R55), and the listed words. -/

namespace Sys2Proof

/-- DTA by its high nibble alone. -/
theorem decode_of_highNibble_dta {op : Byte} (h : highNibble op = 0b0010#4) (data : Byte) (rest : List Byte) :
    decode (op :: data :: rest) = .ok (.dta (fieldB op) data, rest) := by
  rw [decode_two (by simp [instrLength, h])]
  simp [decodeOp, bit7_of_highNibble_lt, h]

/-- JMPR by its high nibble alone. -/
theorem decode_of_highNibble_jmpr {op : Byte} (h : highNibble op = 0b0011#4) (rest : List Byte) :
    decode (op :: rest) = .ok (.jmpr (fieldB op), rest) := by
  rw [decode_one (by simp [instrLength, h])]
  simp [decodeOp, bit7_of_highNibble_lt, h]

/-- JMP by its high nibble alone. -/
theorem decode_of_highNibble_jmp {op : Byte} (h : highNibble op = 0b0100#4) (hi lo : Byte) (rest : List Byte) :
    decode (op :: hi :: lo :: rest) = .ok (.jmp (addr16 hi lo), rest) := by
  rw [decode_three (by simp [instrLength, h])]
  simp [decodeOp, bit7_of_highNibble_lt, h]

/-- CLF by its high nibble alone. -/
theorem decode_of_highNibble_clf {op : Byte} (h : highNibble op = 0b0110#4) (rest : List Byte) :
    decode (op :: rest) = .ok (.clf, rest) := by
  rw [decode_one (by simp [instrLength, h])]
  simp [decodeOp, bit7_of_highNibble_lt, h]

/-- Format J puts the address's high byte first (R54). -/
theorem encodeJ_append (high low : BitVec 4) (hi lo : Byte) :
    encodeJ high low (hi ++ lo : BitVec 16) = [(high ++ low : BitVec 8), hi, lo] := by
  have hhi : (hi ++ lo : BitVec 16).extractLsb' 8 8 = hi := BitVec.extractLsb'_append_eq_left
  have hlo : (hi ++ lo : BitVec 16).extractLsb' 0 8 = lo := BitVec.extractLsb'_append_eq_right
  rw [encodeJ, hhi, hlo]

/-- Settles O5: the high nibble and RegB are read off the word, whatever the bits between them are. -/
theorem ignoredBitsDecodeAlike : Obligations.IgnoredBitsDecodeAlike := by
  refine ⟨fun x b data rest => ⟨?_, ?_⟩, fun x hi lo rest => ⟨?_, ?_⟩, fun b data => ⟨?_, ?_⟩, ?_, rfl⟩
  · rw [decode_of_highNibble_dta (highNibble_append_fields _ x b.bits), fieldB_append_bits]
  · rw [decode_of_highNibble_jmpr (highNibble_append_fields _ x b.bits), fieldB_append_bits]
  · exact decode_of_highNibble_jmp (highNibble_append _ x) hi lo rest
  · exact decode_of_highNibble_clf (highNibble_append _ x) rest
  · cases b <;> rfl
  · cases b <;> rfl
  · exact encodeJ_append _ _

/-- Settles O1: each of the thirteen words by running the decoder. -/
theorem decodesListedWords : Obligations.DecodesListedWords :=
  ⟨rfl, rfl, rfl, rfl, rfl, rfl, rfl, rfl, rfl, rfl, rfl, rfl, rfl⟩

end Sys2Proof
end

section
/-! The ALU against arithmetic on natural numbers (40_alu.md): results and flags by value, the two-register encoding
by its word, and what the jumps after CMP see. -/

namespace Sys2Proof.Machine

open Sys2Proof.Claims

/-! ## Words of format RR -/

/-- The opcode byte of three fields, as a number (30_encoding.md R52). -/
theorem append_fields_eq_ofNat (high : BitVec 4) (v w : BitVec 2) :
    (high ++ v ++ w : BitVec 8) = BitVec.ofNat 8 (16 * high.toNat + 4 * v.toNat + w.toNat) := by
  revert high v w
  decide

theorem encodeRR_eq (high : BitVec 4) (a b : Reg) :
    encodeRR high a b = [BitVec.ofNat 8 (16 * high.toNat + 4 * a.bits.toNat + b.bits.toNat)] := by
  rw [encodeRR, append_fields_eq_ofNat]

/-- What the encoder writes in format RR, the decoder reads, whatever follows. -/
theorem encodedRR_of_encode (high : BitVec 4) {i : Reg → Reg → Instr} (h : ∀ a b, encode (i a b) = encodeRR high a b) :
    encodedRR (16 * high.toNat) i := by
  intro a b rest
  have hround := decodeEncodeRoundTrip (i a b) rest
  rwa [h, encodeRR_eq] at hround

/-! ## Results and flags by value -/

/-- No bit of the sum is lost (R72). -/
theorem sum9_toNat (x y : Byte) : (sum9 x y).toNat = x.toNat + y.toNat := by
  have hx := x.isLt
  have hy := y.isLt
  simp only [sum9, BitVec.toNat_add, BitVec.toNat_setWidth]
  omega

theorem addResult_eq (x y : Byte) : addResult x y = BitVec.ofNat 8 (x.toNat + y.toNat) := by
  apply BitVec.eq_of_toNat_eq
  simp [addResult, sum9_toNat]

/-- The ninth bit of the sum says whether it exceeds a byte (R72). -/
theorem sum9_carry (x y : Byte) : (sum9 x y).getLsbD 8 = decide (256 ≤ x.toNat + y.toNat) := by
  rw [← sum9_toNat]
  exact BitVec.msb_eq_decide (sum9 x y)

theorem shlResult_eq (x : Byte) : shlResult x = BitVec.ofNat 8 (2 * x.toNat) := by
  have hshift : shlResult x = x <<< 1 := (BitVec.shiftLeft_eq_concat_of_lt (x := x) (n := 1) (by decide)).symm
  apply BitVec.eq_of_toNat_eq
  rw [hshift, BitVec.toNat_shiftLeft, BitVec.toNat_ofNat, Nat.shiftLeft_eq, Nat.mul_comm]

theorem bit7_eq (x : Byte) : x.getLsbD 7 = decide (128 ≤ x.toNat) := BitVec.msb_eq_decide x

theorem shrResult_eq (x : Byte) : shrResult x = BitVec.ofNat 8 (x.toNat / 2) := by
  have hshift : shrResult x = x >>> 1 :=
    (BitVec.ushiftRight_eq_extractLsb'_of_lt (x := x) (n := 1) (by decide)).symm
  apply BitVec.eq_of_toNat_eq
  rw [hshift, BitVec.toNat_ushiftRight, BitVec.toNat_ofNat, Nat.shiftRight_one]
  omega

theorem bit0_eq (x : Byte) : x.getLsbD 0 = decide (x.toNat % 2 = 1) := by
  simp [BitVec.getLsbD, Nat.testBit_zero]

theorem isZero_eq (r : Byte) : isZero r = decide (r.toNat = 0) := by
  rw [isZero, Bool.eq_iff_iff, beq_iff_eq, decide_eq_true_iff, ← BitVec.toNat_inj]
  rfl

theorem isZero_ofNat (n : Nat) : isZero (BitVec.ofNat 8 n) = decide (n % 256 = 0) := by
  rw [isZero_eq, BitVec.toNat_ofNat]

/-- CMP compares the operands' values (R79). -/
theorem cmpFlags_eq (n : Nat) (x y : Byte) :
    cmpFlags n x y =
      { c := Config.freeFlag n .c, a := decide (y.toNat < x.toNat), e := decide (x.toNat = y.toNat),
        z := Config.freeFlag n .z } := by
  have he : (x == y) = decide (x.toNat = y.toNat) := by
    rw [Bool.eq_iff_iff, beq_iff_eq, decide_eq_true_iff, BitVec.toNat_inj]
  rw [cmpFlags, he]
  rfl

/-! ## The ends of the instructions -/

theorem finishAlu_eq_wroteReg (s : State) (b : Reg) (r : Byte) (f : Flags) :
    s.finishAlu b r f = .next (wroteReg s b r f 1#16) := rfl

/-- The end of NOT, AND, OR and XOR, by the value of the result (R75 to R78). -/
theorem finishLogic_eq_wroteReg (s : State) (b : Reg) (r : Byte) :
    s.finishLogic b r = .next (wroteReg s b (BitVec.ofNat 8 r.toNat) (zeroFlagOnly s r.toNat) 1#16) := by
  rw [State.finishLogic, finishAlu_eq_wroteReg, logicFlags, isZero_eq, BitVec.ofNat_toNat, BitVec.setWidth_eq]
  rfl

/-- A conditional jump whose condition is `p` (42_conditional_jumps.md R90). -/
theorem jumpIf_of_condition_iff {s : State} {cccc : BitVec 4} {p : Prop} [Decidable p]
    (h : condition cccc s.flags = true ↔ p) (addr : Addr) :
    s.jumpIf cccc addr =
      .next { s with pc := if p then addr else s.pc + 3#16, draws := s.draws + 1 } := by
  simp only [jumpIf_eq, h]
  rfl

/-- JA tests A alone (42_conditional_jumps.md R92). -/
theorem condition_ja (f : Flags) : condition 0b0100#4 f = f.a := by simp [condition]

/-- JE tests E alone (R93). -/
theorem condition_je (f : Flags) : condition 0b0010#4 f = f.e := by simp [condition]

/-- JAE tests A and E alone (R98). -/
theorem condition_jae (f : Flags) : condition 0b0110#4 f = (f.a || f.e) := by simp [condition]

/-! ## The statements -/

/-- Settles O19: CMP leaves A and E as the comparison says; the masks of JA, JE and JAE select them and no free flag. -/
theorem cmpThenJumpComparesUnsigned : Obligations.CmpThenJumpComparesUnsigned := by
  intro a b addr s t h
  have hflags : t.flags = cmpFlags s.draws (s.regA a) (s.regB b) := by rw [(exec_next h).2]; rfl
  rw [cmpFlags_eq] at hflags
  refine ⟨jumpIf_of_condition_iff ?_ addr, jumpIf_of_condition_iff ?_ addr, jumpIf_of_condition_iff ?_ addr⟩
  · rw [condition_ja, hflags, decide_eq_true_iff]
  · rw [condition_je, hflags, decide_eq_true_iff]
  · rw [condition_jae, hflags, Bool.or_eq_true, decide_eq_true_iff, decide_eq_true_iff]
    omega

/-- Settles O13: the result and the carry from the 9-bit sum. -/
theorem addWritesSumAndCarry : Obligations.AddWritesSumAndCarry := by
  refine ⟨encodedRR_of_encode 0b1000#4 fun _ _ => rfl, fun a b s => ?_⟩
  rw [exec_add, finishAlu_eq_wroteReg, addFlags, carryFlags, sum9_carry, addResult_eq, isZero_ofNat]

/-- Settles O14: a shift left by one doubles, and bit 7 is set from 128 on. -/
theorem shlShiftsBit7IntoCarry : Obligations.ShlShiftsBit7IntoCarry := by
  refine ⟨encodedRR_of_encode 0b1001#4 fun _ _ => rfl, fun a b s => ?_⟩
  rw [exec_shl, finishAlu_eq_wroteReg, shlFlags, carryFlags, bit7_eq, shlResult_eq, isZero_ofNat]

/-- Settles O15: a shift right by one halves, and bit 0 is the remainder. -/
theorem shrShiftsBit0IntoCarry : Obligations.ShrShiftsBit0IntoCarry := by
  refine ⟨encodedRR_of_encode 0b1010#4 fun _ _ => rfl, fun a b s => ?_⟩
  have hlt : (s.regA a).toNat / 2 < 256 := by have := (s.regA a).isLt; omega
  rw [exec_shr, finishAlu_eq_wroteReg, shrFlags, carryFlags, bit0_eq, shrResult_eq, isZero_ofNat,
    Nat.mod_eq_of_lt hlt]

/-- Settles O16: 255 minus the operand is zero exactly for the operand 255. -/
theorem notWritesComplement : Obligations.NotWritesComplement := by
  refine ⟨encodedRR_of_encode 0b1011#4 fun _ _ => rfl, fun a b s => ?_⟩
  have hnot : (~~~(s.regA a)).toNat = 255 - (s.regA a).toNat := BitVec.toNat_not
  have hzero : 255 - (s.regA a).toNat = 0 ↔ (s.regA a).toNat = 255 := by have := (s.regA a).isLt; omega
  rw [exec_not, finishLogic_eq_wroteReg, hnot, zeroFlagOnly, decide_eq_decide.mpr hzero]

/-- Settles O17: the bitwise operations on bytes are those on their values. -/
theorem andOrXorWriteBitwiseResult : Obligations.AndOrXorWriteBitwiseResult := by
  refine ⟨encodedRR_of_encode 0b1100#4 fun _ _ => rfl, encodedRR_of_encode 0b1101#4 fun _ _ => rfl,
    encodedRR_of_encode 0b1110#4 fun _ _ => rfl, fun a b s => ⟨?_, ?_, ?_⟩⟩
  · rw [exec_and, finishLogic_eq_wroteReg, BitVec.toNat_and]
  · rw [exec_or, finishLogic_eq_wroteReg, BitVec.toNat_or]
  · rw [exec_xor, finishLogic_eq_wroteReg, BitVec.toNat_xor]

/-- Settles O18: the flags by `cmpFlags_eq`, and no register is written. -/
theorem cmpWritesTwoFlags : Obligations.CmpWritesTwoFlags := by
  refine ⟨encodedRR_of_encode 0b1111#4 fun _ _ => rfl, fun a b s => ?_⟩
  rw [exec_cmp, cmpFlags_eq]
  rfl

end Sys2Proof.Machine
end

section
/-! LD, ST, DTA, JMPR, JMP and CLF (41_general.md): their words with every value of the ignored bits, their exact next
states, and what a conditional jump right after CLF does. -/

namespace Sys2Proof.Machine

open Sys2Proof.Claims

/-! ## Words with ignored bits -/

/-- A word of format R whose bits 3:2 are the number `x`, put together from its fields (R53). -/
theorem ofNat_eq_append_fields (high : BitVec 4) {x : Nat} (hx : x < 4) (b : Reg) :
    BitVec.ofNat 8 (16 * high.toNat + 4 * x + b.bits.toNat) = (high ++ BitVec.ofNat 2 x ++ b.bits : BitVec 8) := by
  rw [append_fields_eq_ofNat, BitVec.toNat_ofNat, Nat.mod_eq_of_lt hx]

/-- The high nibble of a word whose low nibble is the number `x` (R50). -/
theorem highNibble_ofNat (high : BitVec 4) {x : Nat} (hx : x < 16) :
    highNibble (BitVec.ofNat 8 (16 * high.toNat + x)) = high := by
  have hhigh := high.isLt
  apply BitVec.eq_of_toNat_eq
  rw [highNibble_toNat, BitVec.toNat_ofNat]
  omega

theorem decode_dta_word {x : Nat} (hx : x < 4) (b : Reg) (data : Byte) (rest : List Byte) :
    decode (BitVec.ofNat 8 (0x20 + 4 * x + b.bits.toNat) :: data :: rest) = .ok (.dta b data, rest) := by
  have hword : BitVec.ofNat 8 (0x20 + 4 * x + b.bits.toNat) = _ := ofNat_eq_append_fields 0b0010#4 hx b
  rw [hword, decode_of_highNibble_dta (highNibble_append_fields _ _ _), fieldB_append_bits]

theorem decode_jmpr_word {x : Nat} (hx : x < 4) (b : Reg) (rest : List Byte) :
    decode (BitVec.ofNat 8 (0x30 + 4 * x + b.bits.toNat) :: rest) = .ok (.jmpr b, rest) := by
  have hword : BitVec.ofNat 8 (0x30 + 4 * x + b.bits.toNat) = _ := ofNat_eq_append_fields 0b0011#4 hx b
  rw [hword, decode_of_highNibble_jmpr (highNibble_append_fields _ _ _), fieldB_append_bits]

theorem encodedJ_jmp_word {x : Nat} (hx : x < 16) : encodedJ (BitVec.ofNat 8 (0x40 + x)) .jmp :=
  fun hi lo rest => decode_of_highNibble_jmp (highNibble_ofNat 0b0100#4 hx) hi lo rest

theorem decode_clf_word {x : Nat} (hx : x < 16) (rest : List Byte) :
    decode (BitVec.ofNat 8 (0x60 + x) :: rest) = .ok (.clf, rest) :=
  decode_of_highNibble_clf (highNibble_ofNat 0b0110#4 hx) rest

/-! ## Steps at given bytes -/

/-- The fetch reads the bytes that memory lists at the pc, modulo 2^16 (20_memory.md R31). -/
theorem fetchByte_of_holdsCode {s : State} {bytes : List Byte} (h : s.holdsCode bytes) {k : Nat}
    (hk : k < bytes.length) : s.fetchByte k = bytes.getD k 0#8 := by
  rw [fetchByte_eq, h k bytes[k] (List.getElem?_eq_getElem hk), List.getD_eq_getElem bytes 0#8 hk]
  rfl

/-- A step at bytes that decode to an instruction runs it (70_reset_and_hazards.md R143): the decoder looks at no byte
after them. -/
theorem step_of_holdsCode {s : State} {bytes rest : List Byte} {i : Instr} (hfault : s.fault = none)
    (hcode : s.holdsCode bytes) (hdecode : decode bytes = .ok (i, rest)) : step s = exec i s := by
  obtain ⟨op, tail, rfl, hlen, rfl, -⟩ := decode_eq_ok hdecode
  have hfetch : ∀ k, k < (op :: tail).length → s.fetchByte k = (op :: tail).getD k 0#8 :=
    fun _ => fetchByte_of_holdsCode hcode
  have hop : s.fetchByte 0 = op := hfetch 0 tail.length.succ_pos
  rw [step_of_running hfault, State.fetchInstr,
    decodeStream_congr fun k hk => hfetch k (lt_of_lt_of_le (hop ▸ hk) hlen)]

/-! ## Addresses by value -/

theorem zext16_eq_ofNat (v : Byte) : zext16 v = BitVec.ofNat 16 v.toNat := by
  rw [← zext16_toNat, BitVec.ofNat_toNat, BitVec.setWidth_eq]

/-- A 16-bit immediate by the values of its two bytes, high byte first (20_memory.md R34). -/
theorem addr16_eq_ofNat (hi lo : Byte) : addr16 hi lo = BitVec.ofNat 16 (256 * hi.toNat + lo.toNat) := by
  rw [← addr16_toNat, BitVec.ofNat_toNat, BitVec.setWidth_eq]

/-! ## Conditional jumps on clear flags -/

/-- Every conditional jump is `jumpIf` with a mask and a target of its own (42_conditional_jumps.md R90). -/
theorem exec_of_isCondJump {i : Instr} (h : isCondJump i = true) :
    ∃ cccc addr, ∀ s, exec i s = s.jumpIf cccc addr := by
  cases i with
  | jc addr | ja addr | je addr | jz addr | jca addr | jce addr | jcz addr | jae addr | jaz addr | jez addr
  | jcae addr | jcaz addr | jcez addr | jaez addr | jcaez addr => exact ⟨_, addr, fun _ => rfl⟩
  | _ => cases h

/-- No mask selects a flag that is 1 when none is (R90). -/
@[simp] theorem condition_clearFlags (cccc : BitVec 4) : condition cccc clearFlags = false := by
  simp [condition, clearFlags]

/-! ## The statements -/

/-- Settles O21: the stored memory, read at every address by `byteAt_store`. -/
theorem stWritesAddressedByte : Obligations.StWritesAddressedByte := by
  refine ⟨encodedRR_of_encode 0b0001#4 fun _ _ => rfl, fun a b s => ?_⟩
  refine ⟨s.mem.store (s.addrA a).toNat (s.regB b), exec_st s a b, fun x => ?_⟩
  rw [byteAt_store, addrA_toNat]

/-- Settles O30: CLF leaves no flag for the jump's mask to select. -/
theorem clfThenConditionalJumpFallsThrough : Obligations.ClfThenConditionalJumpFallsThrough := by
  intro i s t hjump hclf
  obtain ⟨cccc, addr, hexec⟩ := exec_of_isCondJump hjump
  have hflags : t.flags = clearFlags := by rw [(exec_next hclf).2]; rfl
  have hcond : condition cccc t.flags = false := by rw [hflags, condition_clearFlags]
  rw [hexec, jumpIf_eq, hcond]
  rfl

/-- Settles O20: the encoding of format RR, and LD by what memory lists at the address. -/
theorem ldReadsAddressedByte : Obligations.LdReadsAddressedByte :=
  ⟨encodedRR_of_encode 0b0000#4 fun _ _ => rfl, exec_ld_eq_wroteReg⟩

/-- Settles O22: the step runs the DTA that the two bytes decode to. -/
theorem dtaLoadsImmediate : Obligations.DtaLoadsImmediate := by
  refine ⟨fun x b data rest hx => decode_dta_word hx b data rest, fun b data s => exec_dta s b data,
    fun x b data s hx hfault hcode => ?_⟩
  rw [step_of_holdsCode hfault hcode (decode_dta_word hx b data []), exec_dta]
  rfl

/-- Settles O23: the target is RegB, zero-extended. -/
theorem jmprJumpsToRegister : Obligations.JmprJumpsToRegister := by
  refine ⟨fun x b rest hx => decode_jmpr_word hx b rest, fun b s => ?_⟩
  rw [exec_jmpr, State.addrB, zext16_eq_ofNat]
  rfl

/-- Settles O24: the step runs the JMP that the three bytes decode to, and its target is the immediate's value. -/
theorem jmpJumpsToBigEndianImmediate : Obligations.JmpJumpsToBigEndianImmediate := by
  refine ⟨fun x hx => encodedJ_jmp_word hx, fun addr s => exec_jmp s addr, fun x hi lo s hx hfault hcode => ?_⟩
  rw [step_of_holdsCode hfault hcode (encodedJ_jmp_word hx hi lo []), exec_jmp, ← addr16_eq_ofNat]
  rfl

/-- Settles O25: the word by its high nibble, and the four flags written with 0. -/
theorem clfClearsAllFlags : Obligations.ClfClearsAllFlags :=
  ⟨fun _ rest hx => decode_clf_word hx rest, exec_clf⟩

end Sys2Proof.Machine
end

section
/-! The conditional jumps and the reserved byte (42_conditional_jumps.md): each word by its condition mask, the flags
the mask selects, and the exact next state. -/

namespace Sys2Proof.Machine

open Sys2Proof.Claims

/-! ## Words of the opcode bytes 0x50 to 0x5F -/

theorem lowNibble_toNat (op : Byte) : (lowNibble op).toNat = op.toNat % 16 := by
  simp [lowNibble, BitVec.extractLsb'_toNat]

/-- The low nibble of a word put together from its two nibbles as numbers (R50). -/
theorem lowNibble_ofNat (high low : BitVec 4) : lowNibble (BitVec.ofNat 8 (16 * high.toNat + low.toNat)) = low := by
  have hlow := low.isLt
  apply BitVec.eq_of_toNat_eq
  rw [lowNibble_toNat, BitVec.toNat_ofNat]
  omega

/-- A word of high nibble 5 by its low nibble, the mask (R54, R62). -/
theorem decode_of_highNibble_cond {op : Byte} (h : highNibble op = 0b0101#4) (hi lo : Byte) (rest : List Byte) :
    decode (op :: hi :: lo :: rest) = .ok (decodeCond (lowNibble op) (addr16 hi lo), rest) := by
  rw [decode_three (by simp [instrLength, h])]
  simp [decodeOp, bit7_of_highNibble_lt, h]

/-- The opcode byte of mask `cccc` is 0x50 plus the mask, the reserved byte's mask 0 among them (R58, R61). -/
theorem encodedJ_decodeCond (cccc : BitVec 4) : encodedJ (BitVec.ofNat 8 (0x50 + cccc.toNat)) (decodeCond cccc) := by
  intro hi lo rest
  have hhigh : highNibble (BitVec.ofNat 8 (0x50 + cccc.toNat)) = 0b0101#4 :=
    highNibble_ofNat 0b0101#4 cccc.isLt
  have hlow : lowNibble (BitVec.ofNat 8 (0x50 + cccc.toNat)) = cccc := lowNibble_ofNat 0b0101#4 cccc
  rw [decode_of_highNibble_cond hhigh, hlow]
  rfl

/-! ## The flags a mask selects -/

/-- The jump decoded from a mask tests that mask (R90 to R105). -/
theorem exec_decodeCond {cccc : BitVec 4} (h : cccc ≠ 0#4) (addr : Addr) (s : State) :
    exec (decodeCond cccc addr) s = s.jumpIf cccc addr := by
  obtain ⟨mask⟩ := cccc
  fin_cases mask
  · exact absurd rfl h
  all_goals rfl

/-- The bits of a mask, from its value as a number (R90). -/
theorem condition_iff (cccc : BitVec 4) (f : Flags) :
    condition cccc f = true ↔
      (cccc.toNat / 8 = 1 ∧ f.c = true) ∨ (cccc.toNat / 4 % 2 = 1 ∧ f.a = true) ∨
        (cccc.toNat / 2 % 2 = 1 ∧ f.e = true) ∨ (cccc.toNat % 2 = 1 ∧ f.z = true) := by
  have htop : cccc.toNat / 8 % 2 = cccc.toNat / 8 := by have := cccc.isLt; omega
  simp [condition, BitVec.getLsbD, Nat.testBit_eq_decide_div_mod_eq, htop, or_assoc]

/-- The rule of a jump from its mask: the decoder's row for the mask, and the flags the mask selects. -/
theorem jumpRule_of_mask (cccc : BitVec 4) {i : Addr → Instr} {taken : Flags → Bool} (hmask : cccc ≠ 0#4)
    (hrow : decodeCond cccc = i) (htaken : ∀ f, condition cccc f = taken f) :
    jumpRule (BitVec.ofNat 8 (0x50 + cccc.toNat)) i taken := by
  subst hrow
  refine ⟨encodedJ_decodeCond cccc, fun addr s => ?_⟩
  rw [exec_decodeCond hmask, jumpIf_eq, htaken]
  rfl

/-! ## The statements -/

/-- Settles O29: the step runs the jump that the three bytes decode to, and its condition is the mask's. -/
theorem jumpMaskSelectsFlags : Obligations.JumpMaskSelectsFlags := by
  intro n hi lo s hpos hlt hfault hcode
  obtain ⟨cccc, rfl⟩ : ∃ cccc : BitVec 4, cccc.toNat = n := ⟨BitVec.ofNat 4 n, Nat.mod_eq_of_lt hlt⟩
  have hmask : cccc ≠ 0#4 := fun hzero => by simp [hzero] at hpos
  have hstep := step_of_holdsCode hfault hcode (encodedJ_decodeCond cccc hi lo [])
  rw [exec_decodeCond hmask, jumpIf_of_condition_iff (condition_iff cccc s.flags)] at hstep
  refine ⟨fun htaken => ?_, fun hnot => ?_⟩
  · rw [hstep, if_pos htaken, ← addr16_eq_ofNat]
    rfl
  · rw [hstep, if_neg hnot]

/-- Settles O11: the word of mask 0, and the fault with the pc. -/
theorem reservedEncodingAlwaysFaults : Obligations.ReservedEncodingAlwaysFaults :=
  ⟨encodedJ_decodeCond 0b0000#4, fun addr s => exec_reserved50 s addr⟩

/-- Settles O26: the four masks of one bit. -/
theorem singleFlagJumps : Obligations.SingleFlagJumps := by
  refine ⟨jumpRule_of_mask 0b1000#4 (by decide) rfl ?_,
    jumpRule_of_mask 0b0100#4 (by decide) rfl condition_ja,
    jumpRule_of_mask 0b0010#4 (by decide) rfl condition_je,
    jumpRule_of_mask 0b0001#4 (by decide) rfl ?_⟩
  all_goals exact fun f => by simp [condition]

/-- Settles O27: the six masks of two bits. -/
theorem twoFlagJumps : Obligations.TwoFlagJumps := by
  refine ⟨jumpRule_of_mask 0b1100#4 (by decide) rfl ?_,
    jumpRule_of_mask 0b1010#4 (by decide) rfl ?_,
    jumpRule_of_mask 0b1001#4 (by decide) rfl ?_,
    jumpRule_of_mask 0b0110#4 (by decide) rfl condition_jae,
    jumpRule_of_mask 0b0101#4 (by decide) rfl ?_,
    jumpRule_of_mask 0b0011#4 (by decide) rfl ?_⟩
  all_goals exact fun f => by simp [condition]

/-- Settles O28: the four masks of three bits, and the mask of all four. -/
theorem threeAndFourFlagJumps : Obligations.ThreeAndFourFlagJumps := by
  refine ⟨jumpRule_of_mask 0b1110#4 (by decide) rfl ?_,
    jumpRule_of_mask 0b1101#4 (by decide) rfl ?_,
    jumpRule_of_mask 0b1011#4 (by decide) rfl ?_,
    jumpRule_of_mask 0b0111#4 (by decide) rfl ?_,
    jumpRule_of_mask 0b1111#4 (by decide) rfl ?_⟩
  all_goals exact fun f => by simp [condition]

end Sys2Proof.Machine
end

section
/-! The four I/O instructions (43_io.md): their words of format R, their exact next states, and the trace along a
run. -/

namespace Sys2Proof.Machine

open Sys2Proof.Claims

/-! ## Words of format R -/

/-- What the encoder writes in format R, the decoder reads, whatever follows (30_encoding.md R53). -/
theorem encodedR_of_encode (high : BitVec 4) (selector : BitVec 2) {i : Reg → Instr}
    (h : ∀ b, encode (i b) = [opcodeR high selector b]) : encodedR (16 * high.toNat + 4 * selector.toNat) i := by
  intro b rest
  have hround := decodeEncodeRoundTrip (i b) rest
  rwa [h, opcodeR, append_fields_eq_ofNat] at hround

/-! ## The ends of the instructions -/

/-- The end of IND and INA: the value is the answer to the trace as it was before the instruction (R110). -/
theorem inputTo_eq_wroteReg (s : State) (kind : IoKind) (b : Reg) :
    s.inputTo kind b = .next { wroteReg s b (s.ioAnswer kind) s.flags 1#16 with
      trace := s.trace ++ [.input kind (s.ioAnswer kind)] } := rfl

/-- The end of OUTD and OUTA: only the trace and the pc change, and the draw counter (R110). -/
theorem outputFrom_eq (s : State) (kind : IoKind) (b : Reg) :
    s.outputFrom kind b = .next { s with
      trace := s.trace ++ [.output kind (s.regB b)], pc := s.pc + 1#16, draws := s.draws + 1 } := rfl

/-! ## The trace along a run -/

/-- A step appends the event of the instruction it fetches, if that has one (R110). -/
theorem step_trace {s t : State} (h : step s = .next t) : t.trace = s.trace ++ (ioEvent s.fetchInstr s).toList := by
  rw [step_next_eq h]
  exact traceAfter_eq s.fetchInstr s

/-! ## The statements -/

/-- Settles O35: each step appends its instruction's event, if any, in front of what the rest of the run appends. -/
theorem ioTraceIsOnlyExtended : Obligations.IoTraceIsOnlyExtended := by
  intro k s t h
  refine run_induct (P := fun s t => ∃ events, t.trace = s.trace ++ events)
    (fun s => ⟨[], (List.append_nil s.trace).symm⟩) (fun s u t hu hrest => ?_) h
  obtain ⟨events, hevents⟩ := hrest
  exact ⟨(ioEvent s.fetchInstr s).toList ++ events, by rw [hevents, step_trace hu, List.append_assoc]⟩

/-- Settles O31: selector 00 of format R, and the oracle's answer to a data request. -/
theorem indReceivesData : Obligations.IndReceivesData :=
  ⟨encodedR_of_encode 0b0111#4 0b00#2 fun _ => rfl,
    fun b s => ⟨s.ioAnswer .data, rfl, (exec_ind s b).trans (inputTo_eq_wroteReg s .data b)⟩⟩

/-- Settles O32: selector 01 of format R, and the oracle's answer to an address request. -/
theorem inaReceivesAddress : Obligations.InaReceivesAddress :=
  ⟨encodedR_of_encode 0b0111#4 0b01#2 fun _ => rfl,
    fun b s => ⟨s.ioAnswer .addr, rfl, (exec_ina s b).trans (inputTo_eq_wroteReg s .addr b)⟩⟩

/-- Settles O33: selector 10 of format R, and RegB sent as data. -/
theorem outdSendsData : Obligations.OutdSendsData :=
  ⟨encodedR_of_encode 0b0111#4 0b10#2 fun _ => rfl,
    fun b s => (exec_outd s b).trans (outputFrom_eq s .data b)⟩

/-- Settles O34: selector 11 of format R, and RegB sent as an address. -/
theorem outaSendsAddress : Obligations.OutaSendsAddress :=
  ⟨encodedR_of_encode 0b0111#4 0b11#2 fun _ => rfl,
    fun b s => (exec_outa s b).trans (outputFrom_eq s .addr b)⟩

end Sys2Proof.Machine
end

section
/-! Completion, the one fault, and what diverts the program (60_exceptions.md R120, R122, R126). -/

namespace Sys2Proof.Machine

/-! ## Completion -/

/-- Settles O12: a well-formed instruction answers `nextState`, whose fault mark is the old one. -/
theorem everyInstructionCompletes : Obligations.EveryInstructionCompletes :=
  fun i s h => ⟨nextState i s, exec_of_wellFormed s h, rfl⟩

/-! ## The reserved byte and the fault mark -/

/-- A step that faults leaves the state it was in, with the mark (R122). -/
theorem after_of_step_fault {s : State} {f : Fault} (h : step s = .fault f) : s.after = s.stopped f := by
  rw [State.after, h]

/-- Marking a state with the fault it holds changes nothing. -/
theorem stopped_of_fault {s : State} {f : Fault} (h : s.fault = some f) : s.stopped f = s := by
  rw [State.stopped, ← h]

/-- At the opcode byte 0x50 the reserved encoding is fetched, with its two address bytes (42_conditional_jumps.md
R106). -/
theorem fetchInstr_of_byte50 {s : State} (h : s.fetchByte 0 = 0x50#8) :
    s.fetchInstr = .reserved50 (addr16 (s.fetchByte 1) (s.fetchByte 2)) := by
  rw [State.fetchInstr, decodeStream, h]
  rfl

/-- A running state faults at the opcode byte 0x50 (R122). -/
theorem step_of_byte50 {s : State} (hrun : s.fault = none) (h : s.fetchByte 0 = 0x50#8) :
    step s = .fault (.reservedOpcode s.pc) := by
  rw [step_of_running hrun, fetchInstr_of_byte50 h, exec_reserved50, State.raiseReserved]

/-- A running state completes the instruction at every other opcode byte (R120). -/
theorem step_of_byte_ne_50 {s : State} (hrun : s.fault = none) (h : s.fetchByte 0 ≠ 0x50#8) :
    step s = .next (nextState s.fetchInstr s) := by
  rw [step_of_running hrun]
  exact exec_of_wellFormed s (wellFormed_decodeOp h _ _)

/-- Settles O10: a marked state answers its own fault, and a running one faults exactly at the byte 0x50. -/
theorem faultMarkStopsTheMachine : Obligations.FaultMarkStopsTheMachine := by
  refine ⟨fun s f h => ?_, fun s hrun h => ?_, fun s hrun h => ?_⟩
  · have hstep : step s = .fault f := step_of_fault h
    exact ⟨hstep, (after_of_step_fault hstep).trans (stopped_of_fault h)⟩
  · have hstep := step_of_byte50 hrun h
    exact ⟨hstep, after_of_step_fault hstep⟩
  · exact ⟨nextState s.fetchInstr s, step_of_byte_ne_50 hrun h, hrun⟩

/-! ## What diverts the pc -/

/-- A jump changes the pc alone, beside the draw counter (R126): it saves and restores nothing. -/
theorem nextState_of_isJump {i : Instr} (s : State) (h : isJump i = true) :
    nextState i s = { s with pc := pcAfter i s, draws := s.draws + 1 } := by
  cases i with
  | jmpr b | jmp addr | jc addr | ja addr | je addr | jz addr | jca addr | jce addr | jcz addr | jae addr | jaz addr
  | jez addr | jcae addr | jcaz addr | jcez addr | jaez addr | jcaez addr => rfl
  | _ => cases h

/-- Settles O40: an instruction that is no jump falls through, and a jump changes nothing else. -/
theorem onlyJumpsDivertTheProgram : Obligations.OnlyJumpsDivertTheProgram := by
  intro i s t h
  obtain ⟨-, rfl⟩ := exec_next h
  cases hjump : isJump i with
  | false => exact .inl (pcAfter_of_not_jump s hjump)
  | true => exact .inr ⟨rfl, nextState_of_isJump s hjump⟩

end Sys2Proof.Machine
end

section
/-! The step at given bytes, the load of one instruction, and the end-of-run marker (70_reset_and_hazards.md R141, R143,
R144). -/

namespace Sys2Proof.Machine

/-- Settles O8: the fetch reads the bytes, and the decoder looks at no byte after them. -/
theorem stepRunsDecodedInstruction : Obligations.StepRunsDecodedInstruction :=
  fun _ _ _ _ => step_of_holdsCode

/-! ## The load of one instruction -/

/-- What memory lists at every address after the load of one instruction (R141). -/
theorem byteAt_withFetchWord (s : State) (nbits w x : Nat) :
    (s.withFetchWord nbits w).mem.byteAt x =
      if x = (s.pc.toNat + 2) % 65536 then some (tableByte nbits w 2)
      else if x = (s.pc.toNat + 1) % 65536 then some (tableByte nbits w 1)
      else if x = s.pc.toNat % 65536 then some (tableByte nbits w 0)
      else s.mem.byteAt x := by
  simp [State.withFetchWord, State.loadWord, State.loadImage, codeAddr_toNat]

/-- The load changes memory and the fault mark alone. -/
theorem withFetchWord_eq (s : State) (nbits w : Nat) :
    s.withFetchWord nbits w = { s with mem := (s.withFetchWord nbits w).mem, fault := none } :=
  loadImage_eq { s with fault := none } _

/-- The loaded bytes stand at the pc: their three addresses differ modulo 2^16 (10_state.md R16). -/
theorem holdsCode_withFetchWord (s : State) (nbits w : Nat) :
    (s.withFetchWord nbits w).holdsCode [tableByte nbits w 0, tableByte nbits w 1, tableByte nbits w 2] := by
  have hpc : (s.withFetchWord nbits w).pc = s.pc := by rw [withFetchWord_eq]
  apply holdsCode_three <;> rw [hpc, byteAt_withFetchWord]
  · rw [if_neg (by omega), if_neg (by omega), if_pos rfl]
  · rw [if_neg (by omega), if_pos rfl]
  · rw [if_pos rfl]

/-- What the table decoder reads, the list decoder reads from the word's three bytes. -/
theorem decode_of_decodeTableWord {nbits w : Nat} {i : Instr} (h : decodeTableWord nbits w = some i) :
    ∃ rest, decode [tableByte nbits w 0, tableByte nbits w 1, tableByte nbits w 2] = .ok (i, rest) := by
  unfold decodeTableWord at h
  split at h
  next j rest hdecode =>
    cases h
    exact ⟨rest, hdecode⟩
  next => cases h

/-- Settles O50: the loaded bytes stand at the pc, so the step runs what they decode to. -/
theorem loadedWordRunsNext : Obligations.LoadedWordRunsNext := by
  intro s nbits w i h
  obtain ⟨rest, hdecode⟩ := decode_of_decodeTableWord h
  have hfault : (s.withFetchWord nbits w).fault = none := by rw [withFetchWord_eq]
  refine ⟨step_of_holdsCode hfault (holdsCode_withFetchWord s nbits w) hdecode, withFetchWord_eq s nbits w,
    fun x hx => ?_⟩
  rw [byteAt_withFetchWord, if_neg (hx 2 (by decide)), if_neg (hx 1 (by decide))]
  exact if_neg (hx 0 (by decide))

/-! ## The end-of-run marker -/

/-- The opcode bytes of JMP are those of the high nibble 4 (30_encoding.md R58). -/
theorem highNibble_of_jmp_range {op : Byte} (hlow : 0x40 ≤ op.toNat) (hhigh : op.toNat ≤ 0x4F) :
    highNibble op = 0b0100#4 := by
  apply BitVec.eq_of_toNat_eq
  rw [highNibble_toNat, BitVec.toNat_ofNat]
  omega

/-- A step at the marker jumps to where it is: only the draw counter moves. -/
theorem step_of_atEndMarker {s : State} (hfault : s.fault = none) (h : s.atEndMarker) :
    step s = .next { s with draws := s.draws + 1 } := by
  obtain ⟨op, hi, lo, hlow, hhigh, hcode, htarget⟩ := h
  have hpc : addr16 hi lo = s.pc := BitVec.eq_of_toNat_eq ((addr16_toNat hi lo).trans htarget)
  have hdecode := decode_of_highNibble_jmp (highNibble_of_jmp_range hlow hhigh) hi lo []
  rw [step_of_holdsCode hfault hcode hdecode, exec_jmp, hpc, State.goTo]

/-- The marker is read off the pc and memory, not the draw counter. -/
theorem atEndMarker_with_draws {s : State} (h : s.atEndMarker) (n : Nat) : { s with draws := n }.atEndMarker := h

/-- Settles O51, by induction on the number of steps: a step leaves the marker and the fault mark as they were. -/
theorem endMarkerNeverLeaves : Obligations.EndMarkerNeverLeaves := by
  intro k s hfault h
  induction k generalizing s with
  | zero => rfl
  | succ k ih =>
    rw [run_succ, step_of_atEndMarker hfault h]
    have hrest := ih { s with draws := s.draws + 1 } hfault (atEndMarker_with_draws h _)
    rw [Nat.add_right_comm, Nat.add_assoc] at hrest
    exact hrest

end Sys2Proof.Machine
end
